-- ==== Sys2Proof/Word.lean ====
section
/-! DEFINITION. The widths the spec computes with (`spec/00_scope.md` R7: every value is unsigned, bit 0 is the least
significant bit). -/

namespace Sys2Proof

/-- A byte of a stream, of a frame or of the response buffer (R30, R33). -/
abbrev Byte := BitVec 8

/-- A value of the one CRC register (R12). -/
abbrev Crc := BitVec 16

/-- A command descriptor, a 48-bit port value with no byte order (R32, R49). -/
abbrev Descriptor := BitVec 48

/-- A pulse on-time in milliseconds, `ONMS_W = 24` bits (R6, R49). -/
abbrev OnMs := BitVec 24

end Sys2Proof
end

