-- ==== Sys2Proof/Syntax.lean ====
section
/-! DEFINITION. The operations of the block: one constructor for each row of `spec/opcode_table.json` (R50), with the
operands that row uses (R50, R53). A field that an operation ignores is no operand of it (R49). -/

namespace Sys2Proof

/-- A command, as its mnemonic form of R53 writes it. -/
inductive Instr where
  /-- `TOGGLE index, action` (R71). -/
  | toggle (index action : Byte)
  /-- `TOGGLE_ALL action` (R72). -/
  | toggleAll (action : Byte)
  /-- `PULSE index, on_ms` (R73). -/
  | pulse (index : Byte) (onMs : OnMs)
  /-- `GET_VER` (R74). -/
  | getVer
deriving DecidableEq, Repr

end Sys2Proof
end

