-- ==== Sys2Proof/Decode.lean ====
section
/-! DEFINITION. The command descriptor (R49, R50, R53): its fields, the decoder, and after it the encoder. -/

namespace Sys2Proof

/-- `op = cmd[47:40]` (R49). -/
def opField (d : Descriptor) : Byte := d.extractLsb' 40 8

/-- `index = cmd[39:32]` (R49). -/
def indexField (d : Descriptor) : Byte := d.extractLsb' 32 8

/-- `action = cmd[31:24]` (R49). -/
def actionField (d : Descriptor) : Byte := d.extractLsb' 24 8

/-- `on_ms = cmd[23:0]` (R49). -/
def onMsField (d : Descriptor) : OnMs := d.extractLsb' 0 24

/-- Why a descriptor is no command. -/
inductive DecodeError where
  /-- `op` is one of the reserved codes `0x04` to `0xFF` (R50). Safe: accepting such a descriptor raises `ENC_ERROR`
  (R51), as the spec says. -/
  | reservedOp (op : Byte)
deriving DecidableEq, Repr

/-- The row that a descriptor selects, by its `op` alone (R50), with the fields that row uses (R49). Whether the
operands are legal is not the decoder's question: the encoding precondition is tested at acceptance (R76, R81). -/
def decode (d : Descriptor) : Except DecodeError Instr :=
  if opField d = 0x00 then .ok (.toggle (indexField d) (actionField d))
  else if opField d = 0x01 then .ok (.toggleAll (actionField d))
  else if opField d = 0x02 then .ok (.pulse (indexField d) (onMsField d))
  else if opField d = 0x03 then .ok .getVer
  else .error (.reservedOp (opField d))

/-- The operation code of a command (R50). -/
def Instr.op : Instr → Byte
  | .toggle _ _ => 0x00
  | .toggleAll _ => 0x01
  | .pulse _ _ => 0x02
  | .getVer => 0x03

/-- The descriptor that carries the four fields, each at its place (R49). -/
def packDescriptor (op index action : Byte) (onMs : OnMs) : Descriptor :=
  op ++ index ++ action ++ onMs

/-- The descriptor of a command, its unused fields written 0 (R53). -/
def encode : Instr → Descriptor
  | .toggle index action => packDescriptor 0x00 index action 0
  | .toggleAll action => packDescriptor 0x01 0 action 0
  | .pulse index onMs => packDescriptor 0x02 index 0 onMs
  | .getVer => packDescriptor 0x03 0 0 0

/-- The mask of every row of the opcode table (R50). -/
def rowMask : Descriptor := 0xFF0000000000

/-- The match value of a command's row (R50). -/
def Instr.rowMatch : Instr → Descriptor
  | .toggle _ _ => 0x000000000000
  | .toggleAll _ => 0x010000000000
  | .pulse _ _ => 0x020000000000
  | .getVer => 0x030000000000

/-- The command the decoder reads from the low `nbits` bits of `w`, numbered as the opcode table numbers them: bit 0 is
bit 0 of the 48-bit port value `cmd`, which has no byte order (R32); log 19. -/
def decodeTableWord (nbits w : Nat) : Option Instr :=
  match decode (BitVec.ofNat 48 (w % 2 ^ nbits)) with
  | .ok i => some i
  | .error _ => none

end Sys2Proof
end

