-- ==== Sys2Proof/Machine/Operands.lean ====
section
/-! DEFINITION. The operand forms of the four operations: the constants of the wire protocol (R5), which operand values
are legal (R51), the halves of a 16-bit value (R7) and the pulse tick value (R75). -/

namespace Sys2Proof.Machine

/-- `lo(v) = v[7:0]` (R7). -/
def lo (v : BitVec 16) : Byte := v.setWidth 8

/-- `hi(v) = v[15:8]` (R7). -/
def hi (v : BitVec 16) : Byte := (v >>> 8).setWidth 8

/-- `SLAVE_ADDR`, byte 0 of every request (R5). -/
def slaveAddr : Byte := 0x01

/-- The function code of toggleRelay, toggleAllRelays and pulseRelay (R5). -/
def fnWrite : Byte := 0x05

/-- The function code of getSwVersion (R5). -/
def fnRead : Byte := 0x03

/-- RelayAction `ON` (R5). -/
def actionOn : Byte := 0xFF

/-- RelayAction `OFF` (R5). -/
def actionOff : Byte := 0x00

/-- RelayAction `FLIP` (R5). -/
def actionFlip : Byte := 0x55

/-- RelayIndex `ALL_RELAYS` (R5). -/
def allRelays : Byte := 0xFF

/-- The actions R51 and R71 accept: "no other values are valid". -/
def actionLegal (action : Byte) : Bool :=
  action == actionOn || action == actionOff || action == actionFlip

/-- The largest on-time R51 and R73 accept. -/
def onMsMax : Nat := 999999

/-- The on-times R51 and R73 accept. -/
def onMsLegal (onMs : OnMs) : Bool := decide (onMs.toNat ≤ onMsMax)

/-- Pulse ticks of 100 ms, `on_ms / 100`, the remainder dropped (R73, R78). -/
def pulseTicks (onMs : OnMs) : Nat := onMs.toNat / 100

/-- `bcd16(t)`: the packed decimal of `t`, one 4-bit group for each of four decimal digits (R75). -/
def bcd16 (t : Nat) : BitVec 16 :=
  let d3 := t / 1000 % 10
  let d2 := t / 100 % 10
  let d1 := t / 10 % 10
  let d0 := t % 10
  BitVec.ofNat 16 (d3 * 4096 + d2 * 256 + d1 * 16 + d0)

end Sys2Proof.Machine
end

