-- ==== Sys2Proof/Machine/Crc.lean ====
section
/-! DEFINITION. The CRC-16/MODBUS generator (`spec/40_crc.md`): the one-byte step, the CRC of a sequence, the two
equivalent one-cycle forms, and the checksum bytes of append mode. -/

namespace Sys2Proof.Machine

/-- `POLY`, the reflected form of 0x8005 (R5). -/
def crcPoly : Crc := 0xA001

/-- `CRC_INIT` (R5). -/
def crcInit : Crc := 0xFFFF

/-- One of the eight rounds of R61: shift right by one, and exclusive-or the polynomial if the bit shifted out was 1. -/
def crcRound (c : Crc) : Crc :=
  if c.getLsbD 0 then (c >>> 1) ^^^ crcPoly else c >>> 1

/-- `n` rounds of R61. -/
def crcRounds : Nat → Crc → Crc
  | 0, c => c
  | n + 1, c => crcRounds n (crcRound c)

/-- `crc_step(c, b)`: fold one byte into the register (R61); log 12. -/
def crcStep (c : Crc) (b : Byte) : Crc := crcRounds 8 (c ^^^ b.setWidth 16)

/-- `crc_compute(bytes)` (R62). -/
def crcCompute (bytes : List Byte) : Crc := bytes.foldl crcStep crcInit

/-- `T(x) = crc_step(0x0000, x)`, the 256-entry table of R63. -/
def crcTable (x : Byte) : Crc := crcStep 0 x

/-- The table form of the step (R63). -/
def crcStepByTable (c : Crc) (b : Byte) : Crc := (c >>> 8) ^^^ crcTable (lo c ^^^ b)

/-- The parity of a byte (R63). -/
def parity (x : Byte) : Bool :=
  x.getLsbD 0 ^^ x.getLsbD 1 ^^ x.getLsbD 2 ^^ x.getLsbD 3 ^^
    x.getLsbD 4 ^^ x.getLsbD 5 ^^ x.getLsbD 6 ^^ x.getLsbD 7

/-- The closed form of `T` (R63). -/
def crcTableClosed (x : Byte) : Crc :=
  (if parity x then 0xC001 else 0x0000) ^^^ (x.setWidth 16 <<< 6) ^^^ (x.setWidth 16 <<< 7)

/-- MBR's `checksumBytes`: the two bytes append mode puts behind `bytes`, low byte first (R64, R32). -/
def checksumBytes (bytes : List Byte) : List Byte := [lo (crcCompute bytes), hi (crcCompute bytes)]

/-- Verify mode's condition: a sequence is a complete, valid frame exactly when its CRC is 0 (R65). -/
def crcAccepts (bytes : List Byte) : Bool := crcCompute bytes == 0

end Sys2Proof.Machine
end

