-- ==== Sys2Proof/Machine/Ports.lean ====
section
/-! DEFINITION. The ports of the block (R17), as two records of plain data: what is sampled at a clock edge and what is
driven during a cycle. `clk` is no field: one step of the model is one rising edge (R8). -/

namespace Sys2Proof.Machine

/-- The input ports at one clock edge (R17). A one-bit port is a Bool: every input is a defined 0 or 1 (R119). -/
structure Inputs where
  /-- `rst`, synchronous reset, active high. -/
  rst : Bool
  /-- `cmd_valid`: the host offers a command descriptor. -/
  cmdValid : Bool
  /-- `cmd`, the command descriptor (R49). -/
  cmd : Descriptor
  /-- `cmd_timeout`, in ticks; only its low TIMER_W bits are wires of the port. -/
  cmdTimeout : Nat
  /-- `tx_ready`: the link takes the offered byte. -/
  txReady : Bool
  /-- `rx_valid`: `rx_data` is the oldest unread byte. -/
  rxValid : Bool
  /-- `rx_data`. -/
  rxData : Byte
  /-- `link_err`: the connection failed. -/
  linkErr : Bool
  /-- `tick_i`: one tick of the time base. -/
  tickI : Bool
  /-- `res_ack`: the host has taken the result. -/
  resAck : Bool
  /-- `rd_addr`, buffer read address; only its low LEN_W bits are wires of the port. -/
  rdAddr : Nat
deriving DecidableEq, Repr, Inhabited

/-- Every input at 0. -/
def Inputs.quiet : Inputs :=
  { rst := false, cmdValid := false, cmd := 0, cmdTimeout := 0, txReady := false, rxValid := false, rxData := 0,
    linkErr := false, tickI := false, resAck := false, rdAddr := 0 }

/-- The output ports during one cycle (R17, R18). -/
structure Outputs where
  /-- `cmd_ready`. -/
  cmdReady : Bool
  /-- `tx_valid`. -/
  txValid : Bool
  /-- `tx_data`. -/
  txData : Byte
  /-- `tx_last`. -/
  txLast : Bool
  /-- `rx_ready`. -/
  rxReady : Bool
  /-- `link_req`. -/
  linkReq : Bool
  /-- `res_valid`. -/
  resValid : Bool
  /-- `res_status`, 3 bits (R11). -/
  resStatus : BitVec 3
  /-- `resp_len`, LEN_W bits. -/
  respLen : Nat
  /-- `rd_data`. -/
  rdData : Byte
  /-- `crc_o`. -/
  crcO : Crc
  /-- `crc_zero_o`. -/
  crcZeroO : Bool
deriving DecidableEq, Repr

end Sys2Proof.Machine
end

