-- ==== Sys2Proof/Config.lean ====
section
/-! DEFINITION. What an implementation fixes (the open parameters of R6) and the free values: constants without a body,
so that no proof can lean on what they are. -/

namespace Sys2Proof

/-- The open parameters of R6 that a rule depends on. One instance of the block has one value of each, for good. -/
structure Config.Params where
  /-- `TIMER_W`, the width in bits of `cmd_timeout` and `timeout_r`; at least 1 (R6). -/
  timerW : Nat
  /-- `RESP_CAP`, the capacity of the response buffer in bytes, at least 1; `none` is the infinite buffer (R6). -/
  respCap : Option Nat
deriving DecidableEq, Repr

/-- The values R6 gives this hardware: `TIMER_W = 16`, `RESP_CAP = 256`. -/
def Config.defaultParams : Config.Params := { timerW := 16, respCap := some 256 }

/-- FREE VALUE: the inputs at clock edge number `cycle` where the state lists none. The environment drives every input
to some value at every edge (R119) and the spec says nothing of which (R20); log 1. -/
opaque Config.freeInputs (cycle : Nat) : Machine.Inputs

/-- FREE VALUE: what `rd_data` shows during cycle `cycle` for an address at or above `len`, a fresh draw at every cycle
(R31, U7); log 5. -/
opaque Config.freeRdData (cycle addr : Nat) : Byte

end Sys2Proof
end

