-- ==== Sys2Proof/Machine/State.lean ====
section
/-! DEFINITION. The state of the block (R10) as plain data, its reset value (R116), and the reasons a step can stop. -/

namespace Sys2Proof.Machine

/-- The eight values of the state element `state` (R11). -/
inductive Phase where
  /-- Code 0: no command in progress. -/
  | idle
  /-- Code 1: the frame bytes are being handed to the TX stream. -/
  | sent
  /-- Code 2: the read loop. -/
  | reading
  /-- Code 3, terminal: the CRC of the buffer reached 0. -/
  | complete
  /-- Code 4, terminal: MBR's `TimeoutError`. -/
  | timeout
  /-- Code 5, terminal: MBR's `ConnectionError`. -/
  | connError
  /-- Code 6, terminal: MBR's `EncodingPrecondition`; nothing was sent. -/
  | encError
  /-- Code 7, terminal: a byte arrived with the buffer full. -/
  | overflow
deriving DecidableEq, Repr

/-- The state element `body[0..5]` (R13): slave address, function code and payload of the frame being sent. -/
structure Body where
  /-- `body[0]`, the slave address. -/
  b0 : Byte
  /-- `body[1]`, the function code. -/
  b1 : Byte
  /-- `body[2]`, the first payload byte. -/
  b2 : Byte
  /-- `body[3]`. -/
  b3 : Byte
  /-- `body[4]`. -/
  b4 : Byte
  /-- `body[5]`, the last payload byte. -/
  b5 : Byte
deriving DecidableEq, Repr

/-- The response buffer `buf` (R15, R30): its written bytes by index, in the canonical form `Memory.wf`. -/
abbrev Memory := List Host.Cell

/-- The whole state: the eight elements of R10, then the model's own fields. -/
structure State where
  /-- `state`, 3 bits (R11). -/
  phase : Phase
  /-- `crc`, 16 bits (R12). -/
  crc : Crc
  /-- `body[0..5]` (R13). -/
  body : Body
  /-- `tx_cnt`, 4 bits (R14). -/
  txCnt : BitVec 4
  /-- `len`, LEN_W bits (R15): the number of bytes received for the current command. -/
  len : Nat
  /-- `buf[0..RESP_CAP-1]` (R15). -/
  buf : Memory
  /-- `elapsed`, TIMER_W + 1 bits (R16). -/
  elapsed : Nat
  /-- `timeout_r`, TIMER_W bits (R16). -/
  timeoutR : Nat
  /-- The MODEL's own: the parameters of this instance of the block (R6); no step writes it. -/
  params : Config.Params
  /-- The MODEL's own: the input samples of the coming clock edges, the next one first (R20); log 1. -/
  stim : List Inputs
  /-- The MODEL's own: the number of clock edges so far, the argument of the free values. -/
  cycle : Nat
deriving DecidableEq, Repr

/-- The reasons a step can stop with a fault. -/
inductive Fault where
  /-- Raised by the buffer store of R85 at an index that `buf[0..RESP_CAP-1]` does not have. The spec's own values of
  `len` never lead there (R10, R89). Safe: the machine stops where the spec says nothing, and no run reaches it. -/
  | bufferIndexOutOfRange (index : Nat)
deriving DecidableEq, Repr

/-- The reasons a step can be refused. -/
inductive Refusal where
  /-- Raised by an arm of `exec` for an instruction without a meaning. No arm does: all four operations have theirs.
  Safe: the machine stops. -/
  | notModelled (mnemonic : String)
deriving DecidableEq, Repr

/-- The values R115 and R116 give, and for what they leave unspecified the values of logs 3 (`body`), 4 (`buf`),
6 (`params`) and 9 (`stim`, `cycle`). -/
def State.reset : State :=
  { phase := .idle, crc := 0xFFFF, body := ⟨0, 0, 0, 0, 0, 0⟩, txCnt := 0, len := 0, buf := [], elapsed := 0,
    timeoutR := 0, params := Config.defaultParams, stim := [], cycle := 0 }

end Sys2Proof.Machine
end

