-- ==== Sys2Proof/Machine/FrameEncoder.lean ====
section
/-! DEFINITION. The frame encoder (`spec/41_frame_encoder.md`): a pure function from a command to the six body bytes, or
`none` where R76 calls it invalid. -/

namespace Sys2Proof.Machine

/-- The six body bytes in frame order (R13, R32). -/
def Body.bytes (B : Body) : List Byte := [B.b0, B.b1, B.b2, B.b3, B.b4, B.b5]

/-- `body[k]`; there is no byte at 6 or above (R13). -/
def Body.byte? (B : Body) (k : Nat) : Option Byte := B.bytes[k]?

/-- `enc_toggle(index, action)` (R71). -/
def encToggle (index action : Byte) : Option Body :=
  if actionLegal action then some ⟨slaveAddr, fnWrite, 0x00, index, action, 0x00⟩ else none

/-- `enc_pulse(index, on_ms)` (R73). -/
def encPulse (index : Byte) (onMs : OnMs) : Option Body :=
  if onMsLegal onMs then
    let v := bcd16 (pulseTicks onMs)
    some ⟨slaveAddr, fnWrite, 0x02, index, hi v, lo v⟩
  else none

/-- The body of `GET_VER`, a constant (R74). -/
def encGetVer : Body := ⟨slaveAddr, fnRead, 0x80, 0x00, 0x00, 0x01⟩

/-- The body of a decoded command: the four cases of `enc_body` (R70). -/
def encInstr : Instr → Option Body
  | .toggle index action => encToggle index action
  | .toggleAll action => encToggle allRelays action
  | .pulse index onMs => encPulse index onMs
  | .getVer => some encGetVer

/-- `enc_body(cmd)`, `none` being `invalid` (R70, R76). -/
def encBody (d : Descriptor) : Option Body :=
  match decode d with
  | .ok i => encInstr i
  | .error _ => none

/-- The whole request frame of a body: the body and its two checksum bytes (R64, R77). -/
def frameOf (B : Body) : List Byte := B.bytes ++ checksumBytes B.bytes

/-- The spec's `encode(cmd)`, the request frame of a descriptor, `none` where the descriptor is invalid (R77). -/
def requestFrame (d : Descriptor) : Option (List Byte) := (encBody d).map frameOf

end Sys2Proof.Machine
end

