-- ==== Sys2Proof/Machine/Flags.lean ====
section
/-! DEFINITION. The state codes (R11, R100) and the condition flags, all combinational (R19). -/

namespace Sys2Proof.Machine

/-- The 3-bit code of a state, which `res_status` shows (R11, R100). -/
def Phase.code : Phase → BitVec 3
  | .idle => 0
  | .sent => 1
  | .reading => 2
  | .complete => 3
  | .timeout => 4
  | .connError => 5
  | .encError => 6
  | .overflow => 7

/-- The terminal states, `state >= 3` (R9, R18). -/
def Phase.terminal (p : Phase) : Bool := decide (3 ≤ p.code.toNat)

/-- The states in which the block owns a connection and counts ticks (R83, R91). -/
def Phase.active (p : Phase) : Bool := p == .sent || p == .reading

/-- The flag `res_valid` (R19). -/
def State.resValid (s : State) : Bool := s.phase.terminal

/-- The flag `expired`: strictly more ticks than the timeout (R18, R19, R87). -/
def State.expired (s : State) : Bool := decide (s.timeoutR < s.elapsed)

/-- The flag `crc_zero_o` (R19). -/
def State.crcZero (s : State) : Bool := s.crc == 0

/-- `len == RESP_CAP`, never so with an infinite buffer (R85, R6). -/
def State.bufferFull (s : State) : Bool := s.params.respCap == some s.len

end Sys2Proof.Machine
end

