-- ==== Sys2Proof/Machine/Ops.lean ====
section
/-! DEFINITION. The named operations over the state: the sampled inputs, the response buffer, the CRC register, the
tick counter, raising an outcome and returning from one, reset, and the start of a command. -/

namespace Sys2Proof.Machine

/-! ### The inputs of the current cycle -/

/-- The inputs sampled at the edge that ends the current cycle: the next of the schedule, or past its end a free value
(R20, R119); log 1. -/
def State.inp (s : State) : Inputs :=
  match s.stim with
  | i :: _ => i
  | [] => Config.freeInputs s.cycle

/-- The clock edge is past: the inputs of the next cycle are at the ports (R8). -/
def State.advance (s : State) : State := { s with stim := s.stim.tail, cycle := s.cycle + 1 }

/-- `cmd_timeout` as the `TIMER_W` wires of the port carry it (R17); log 7. -/
def State.sampledTimeout (s : State) : Nat := s.inp.cmdTimeout % 2 ^ s.params.timerW

/-- `LEN_W = ceil(log2(RESP_CAP + 1))`, the number of bits of `RESP_CAP` (R6); none for an infinite buffer. -/
def lenW (p : Config.Params) : Option Nat :=
  match p.respCap with
  | some cap => some (Nat.log2 cap + 1)
  | none => none

/-- `rd_addr` as the `LEN_W` wires of the port carry it (R17); log 7. -/
def State.sampledRdAddr (s : State) : Nat :=
  match lenW s.params with
  | some w => s.inp.rdAddr % 2 ^ w
  | none => s.inp.rdAddr

/-- The schedule with a valid command descriptor at the command port at the next edge and `rst` low (R17, R49). The
other ports of that edge keep what the schedule says, or are 0 where it says nothing. -/
def offerCommand (d : Descriptor) : List Inputs → List Inputs
  | i :: rest => { i with rst := false, cmdValid := true, cmd := d } :: rest
  | [] => [{ Inputs.quiet with cmdValid := true, cmd := d }]

/-! ### The response buffer -/

/-- What an index that nothing has written reads as: no value, "a read of an unwritten element" (R10, U6); log 4. -/
def Memory.unlisted : Option Byte := none

/-- `MemRead(a, 1)` (R30). -/
def Memory.read : Memory → Nat → Option Byte
  | [], _ => Memory.unlisted
  | (k, v) :: m, a => if k = a then some v else Memory.read m a

/-- `MemWrite(a, 1, v)` (R30), keeping the indices strictly rising. -/
def Memory.write : Memory → Nat → Byte → Memory
  | [], a, v => [(a, v)]
  | (k, w) :: m, a, v =>
    if a < k then (a, v) :: (k, w) :: m
    else if a = k then (a, v) :: m
    else (k, w) :: Memory.write m a v

/-- Every index of `m` is above `k`. -/
def Memory.above (k : Nat) (m : Memory) : Bool := m.all (fun c => decide (k < c.1))

/-- The canonical form: indices strictly rising. No cell equals what an unlisted index reads as, which is no value. -/
def Memory.wf : Memory → Bool
  | [] => true
  | (k, _) :: m => Memory.above k m && Memory.wf m

/-- Whether `buf` has a byte at index `a`: indices 0 to `RESP_CAP - 1` (R30, R35). -/
def indexExists (p : Config.Params) (a : Nat) : Bool :=
  match p.respCap with
  | some cap => decide (a < cap)
  | none => true

/-- `buf[0 .. len-1]`, the bytes received for the current command in arrival order (R15). -/
def State.received (s : State) : List Byte := (List.range s.len).filterMap (Memory.read s.buf)

/-! ### The CRC register (R67) -/

/-- Initialise: `crc <- 0xFFFF` (R67). -/
def crcReset (s : State) : State := { s with crc := crcInit }

/-- Fold: `crc <- crc_step(crc, b)` (R67). -/
def crcFold (b : Byte) (s : State) : State := { s with crc := crcStep s.crc b }

/-! ### The tick counter -/

/-- The largest value of `elapsed`, `2^(TIMER_W+1) - 1` (R16). -/
def elapsedMax (p : Config.Params) : Nat := 2 ^ (p.timerW + 1) - 1

/-- One edge of the tick counter in `SENT` or `READING`, saturating (R83). -/
def countTick (tick : Bool) (s : State) : State :=
  if tick && decide (s.elapsed < elapsedMax s.params) then { s with elapsed := s.elapsed + 1 } else s

/-! ### Outcomes: entry and return -/

/-- The outcomes that `raise` of R8 takes (R101). -/
inductive ErrorOutcome where
  /-- `TIMEOUT` (R87). -/
  | timeout
  /-- `CONN_ERROR` (R88). -/
  | connError
  /-- `ENC_ERROR` (R76, R81). -/
  | encError
  /-- `OVERFLOW` (R89). -/
  | overflow
deriving DecidableEq, Repr

/-- The terminal state of an outcome (R100). -/
def ErrorOutcome.phase : ErrorOutcome → Phase
  | .timeout => .timeout
  | .connError => .connError
  | .encError => .encError
  | .overflow => .overflow

/-- Entry, the block's trap entry: raising an outcome writes `state` and nothing else (R104). -/
def raise (o : ErrorOutcome) (s : State) : State := { s with phase := o.phase }

/-- Return, the block's trap return: `state <- IDLE`, `len <- 0`, `crc <- 0xFFFF` (R90, R105). -/
def returnToIdle (s : State) : State := { s with phase := .idle, len := 0, crc := crcInit }

/-! ### Reset and the start of a command -/

/-- The reset edge; `body` and `buf` are not written (R115). -/
def resetEdge (s : State) : State :=
  { s with phase := .idle, crc := crcInit, txCnt := 0, len := 0, elapsed := 0, timeoutR := 0 }

/-- Acceptance of a valid command with body `B` (R81). -/
def startCommand (B : Body) (s : State) : State :=
  { s with body := B, crc := crcInit, txCnt := 0, len := 0, elapsed := 0, timeoutR := s.sampledTimeout, phase := .sent }

/-- A command offered with the body the encoder gives, `none` being `invalid`: in `IDLE` it is accepted (R81) and starts
or raises `ENC_ERROR`; in any other state it is not accepted and has no effect (R24); log 11. -/
def acceptCommand (B : Option Body) (s : State) : State :=
  match s.phase, B with
  | .idle, some b => startCommand b s
  | .idle, none => raise .encError s
  | _, _ => s

end Sys2Proof.Machine
end

