-- ==== Sys2Proof/Machine/Commands.lean ====
section
/-! DEFINITION. The meanings of the four operations: what the edge that accepts each does (R81), its body by
`spec/41_frame_encoder.md`. What follows acceptance is the sequencer's (`Machine/Sequencer.lean`), the same for all; log 18. -/

namespace Sys2Proof.Machine

/-- `TOGGLE index, action` (R71, R81). -/
def execToggle (index action : Byte) (s : State) : Host.Outcome State Fault Refusal :=
  .next (acceptCommand (encToggle index action) s)

/-- `TOGGLE_ALL action` (R72, R81). -/
def execToggleAll (action : Byte) (s : State) : Host.Outcome State Fault Refusal :=
  .next (acceptCommand (encToggle allRelays action) s)

/-- `PULSE index, on_ms` (R73, R81). -/
def execPulse (index : Byte) (onMs : OnMs) (s : State) : Host.Outcome State Fault Refusal :=
  .next (acceptCommand (encPulse index onMs) s)

/-- `GET_VER` (R74, R81). -/
def execGetVer (s : State) : Host.Outcome State Fault Refusal :=
  .next (acceptCommand (some encGetVer) s)

end Sys2Proof.Machine
end

