-- ==== Sys2Proof/Machine/Dispatch.lean ====
section
/-! DEFINITION. One arm for each operation of the opcode table. -/

namespace Sys2Proof.Machine

def exec (i : Instr) (s : State) : Host.Outcome State Fault Refusal :=
  match i with
  | .toggle index action => Sys2Proof.Machine.execToggle index action s
  | .toggleAll action => Sys2Proof.Machine.execToggleAll action s
  | .pulse index onMs => Sys2Proof.Machine.execPulse index onMs s
  | .getVer => Sys2Proof.Machine.execGetVer s

end Sys2Proof.Machine
end

