-- ==== Sys2Proof/Machine/Sequencer.lean ====
section
/-! DEFINITION. The send sequencer and response reader (`spec/42_sequencer_reader.md`): what each state but `IDLE` does
at a clock edge with `rst` low, given the inputs `i` sampled there. -/

namespace Sys2Proof.Machine

/-- The link takes the frame byte at `tx_cnt` (R82): bytes 0 to 5 are folded, byte 7 ends the write and initialises
`crc`, log 13. For the counts 9 to 15, which no run reaches, log 17. -/
def takeTxByte (s : State) : State :=
  let s1 := match s.body.byte? s.txCnt.toNat with
    | some b => crcFold b s
    | none => s
  let s2 := if s.txCnt = 7 then { crcReset s1 with phase := .reading } else s1
  { s2 with txCnt := s.txCnt + 1 }

/-- `SENT` without its tick counter (R82): `link_err`, then `tx_ready`. -/
def sentEdge (i : Inputs) (s : State) : State :=
  if i.linkErr then raise .connError s
  else if i.txReady then takeTxByte s
  else s

/-- The byte `b` is stored at index `len` and folded; a zero CRC completes the command (R85, R86). -/
def storeRxByte (b : Byte) (s : State) : State :=
  let c := crcStep s.crc b
  { s with buf := Memory.write s.buf s.len b, len := s.len + 1, crc := c,
           phase := if c = 0 then .complete else s.phase }

/-- One byte is read (R85): with the buffer full it is dropped (R89), else it is stored. A store at an index that does
not exist is the model's one fault; log 8. -/
def readRxByte (b : Byte) (s : State) : Host.Outcome State Fault Refusal :=
  if s.bufferFull then .next (raise .overflow s)
  else if indexExists s.params s.len then .next (storeRxByte b s)
  else .fault (.bufferIndexOutOfRange s.len)

/-- `READING` without its tick counter, the tests in the order of R84: expired, `link_err`, `rx_valid`. -/
def readingEdge (i : Inputs) (s : State) : Host.Outcome State Fault Refusal :=
  if s.expired then .next (raise .timeout s)
  else if i.linkErr then .next (raise .connError s)
  else if i.rxValid then readRxByte i.rxData s
  else .next s

/-- A terminal state reads `res_ack` only (R90). -/
def terminalEdge (i : Inputs) (s : State) : State :=
  if i.resAck then returnToIdle s else s

/-- The tick counter beside an edge that may stop (R83). -/
def withTick (i : Inputs) : Host.Outcome State Fault Refusal → Host.Outcome State Fault Refusal
  | .next t => .next (countTick i.tickI t)
  | .fault f => .fault f
  | .refused r => .refused r

end Sys2Proof.Machine
end

