-- ==== Sys2Proof/Machine/Edge.lean ====
section
/-! DEFINITION. One clock edge: the dispatch on `rst` and on the state held during the cycle (R80), with `IDLE` (R81). -/

namespace Sys2Proof.Machine

/-- `IDLE` (R81): a valid descriptor is decoded and run; a reserved operation code raises `ENC_ERROR` (R51). -/
def idleEdge (i : Inputs) (s : State) : Host.Outcome State Fault Refusal :=
  if i.cmdValid then
    match decode i.cmd with
    | .ok instr => exec instr s
    | .error _ => .next (raise .encError s)
  else .next s

/-- The edge with `rst` low, by the state held during the cycle (R80), the tick counter beside it in `SENT` and
`READING` (R83). -/
def phaseEdge (i : Inputs) (s : State) : Host.Outcome State Fault Refusal :=
  match s.phase with
  | .idle => idleEdge i s
  | .sent => withTick i (.next (sentEdge i s))
  | .reading => withTick i (readingEdge i s)
  | .complete => .next (terminalEdge i s)
  | .timeout => .next (terminalEdge i s)
  | .connError => .next (terminalEdge i s)
  | .encError => .next (terminalEdge i s)
  | .overflow => .next (terminalEdge i s)

/-- The edge: `rst` first, then the state (R80, R103). -/
def edge (i : Inputs) (s : State) : Host.Outcome State Fault Refusal :=
  if i.rst then .next (resetEdge s) else phaseEdge i s

end Sys2Proof.Machine
end

