-- ==== Sys2Proof/Machine/Step.lean ====
section
/-! DEFINITION. The step function: one rising edge of `clk` (R80). -/

namespace Sys2Proof.Machine

/-- One clock edge with the inputs the state samples, after which the next cycle's inputs are at the ports. -/
def step (s : State) : Host.Outcome State Fault Refusal :=
  match edge s.inp s with
  | .next t => .next t.advance
  | .fault f => .fault f
  | .refused r => .refused r

/-- `s` in `IDLE`, with the descriptor `w` (its low `nbits` bits) valid at the command port and `rst` low at the next
edge, so that the very next step accepts and runs it; log 2. -/
def State.withFetchWord (s : State) (nbits w : Nat) : State :=
  { s with phase := .idle, stim := offerCommand (BitVec.ofNat 48 (w % 2 ^ nbits)) s.stim }

end Sys2Proof.Machine
end

