-- ==== Sys2Proof/Machine/Outputs.lean ====
section
/-! DEFINITION. The output ports (R18), the byte handshakes (R34), and the host's view of a completed response (R47). -/

namespace Sys2Proof.Machine

/-- `tx_data` (R18): the body, then the two halves of the CRC, the high one for every count above 6 (log 17); 0 outside
`SENT`. -/
def State.txData (s : State) : Byte :=
  if s.phase = .sent then
    match s.body.byte? s.txCnt.toNat with
    | some b => b
    | none => if s.txCnt = 6 then lo s.crc else hi s.crc
  else 0x00

/-- `rd_data` for the address `a` (R18, R31): the buffer below `len`, a free draw at or above it (U7). -/
def State.rdDataAt (s : State) (a : Nat) : Byte :=
  if a < s.len then (Memory.read s.buf a).getD (Config.freeRdData s.cycle a) else Config.freeRdData s.cycle a

/-- The output ports during the current cycle (R18). -/
def State.outputs (s : State) : Outputs :=
  { cmdReady := s.phase == .idle
    txValid := s.phase == .sent
    txData := s.txData
    txLast := s.phase == .sent && s.txCnt == 7
    rxReady := s.phase == .reading && !s.expired && !s.inp.linkErr
    linkReq := s.phase.active
    resValid := s.resValid
    resStatus := s.phase.code
    respLen := s.len
    rdData := s.rdDataAt s.sampledRdAddr
    crcO := s.crc
    crcZeroO := s.crcZero }

/-- A TX handshake at the edge that ends the cycle: `tx_valid` and `tx_ready`, and `link_err` 0 (R34); none at a reset
edge, log 20. -/
def State.txHandshake (s : State) : Bool :=
  !s.inp.rst && s.outputs.txValid && s.inp.txReady && !s.inp.linkErr

/-- An RX handshake at the edge that ends the cycle: `rx_valid` and `rx_ready` (R34); none at a reset edge, log 20. -/
def State.rxHandshake (s : State) : Bool :=
  !s.inp.rst && s.outputs.rxReady && s.inp.rxValid

/-- A response taken apart into the fields of a frame (R45, R47). -/
structure ResponseView where
  /-- Byte 0, the slave address. -/
  slave : Byte
  /-- Byte 1, the function code. -/
  function : Byte
  /-- The bytes between the function code and the checksum. -/
  payload : List Byte
  /-- The last byte but one, `crcLow`. -/
  crcLow : Byte
  /-- The last byte, `crcHigh`. -/
  crcHigh : Byte
deriving DecidableEq, Repr

/-- The field view of a byte sequence, for lengths of 4 and above (R47). -/
def viewBytes : List Byte → Option ResponseView
  | slave :: function :: rest =>
    match rest.reverse with
    | crcHigh :: crcLow :: payload => some ⟨slave, function, payload.reverse, crcLow, crcHigh⟩
    | _ => none
  | _ => none

/-- The host's field view of a completed buffer (R47): a definition for the host; the block computes nothing of it. No
other state has one: log 22. -/
def State.responseView (s : State) : Option ResponseView :=
  if s.phase = .complete then viewBytes s.received else none

end Sys2Proof.Machine
end

