-- ==== Sys2Proof/Safety.lean ====
section
/-! DEFINITION. What a good state and a safe run are, in the terms the statements use. -/

namespace Sys2Proof.Machine

/-! ### The invariant -/

/-- The parameters have values R6 allows: `TIMER_W >= 1`, `RESP_CAP >= 1` or infinite. -/
structure ParamsOk (p : Config.Params) : Prop where
  timer : 1 ≤ p.timerW
  cap : ∀ cap, p.respCap = some cap → 1 ≤ cap

/-- The widths of R10: `len` is at most RESP_CAP, `elapsed` has TIMER_W + 1 bits, `timeout_r` TIMER_W bits, and
`tx_cnt` is one of 0 to 8 (R14). -/
structure WidthsOk (s : State) : Prop where
  len : ∀ cap, s.params.respCap = some cap → s.len ≤ cap
  elapsed : s.elapsed ≤ elapsedMax s.params
  timeout : s.timeoutR < 2 ^ s.params.timerW
  txCnt : s.txCnt.toNat ≤ 8

/-- The buffer is in canonical form, holds no byte outside its indices (R35), and every byte below `len` is written
(R10, R15). -/
structure BufferOk (s : State) : Prop where
  canonical : Memory.wf s.buf = true
  inside : ∀ a, indexExists s.params a = false → Memory.read s.buf a = none
  written : ∀ a, a < s.len → Memory.read s.buf a ≠ none

/-- The CRC register holds the CRC of the body bytes sent so far (R67, R82). -/
def SendCrc (s : State) : Prop := s.crc = crcCompute (s.body.bytes.take s.txCnt.toNat)

/-- The CRC register holds the CRC of the bytes received (R37, R85). -/
def ReadCrc (s : State) : Prop := s.crc = crcCompute s.received

/-- No non-empty proper prefix of the bytes received has CRC 0: the reader stops at the first (R86, R121). -/
def NoEarlierZero (s : State) : Prop :=
  ∀ n, 0 < n → n < s.len → crcCompute (s.received.take n) ≠ 0

/-- What each state of R11 says of the other elements. -/
def PhaseOk (s : State) : Prop :=
  match s.phase with
  | .idle => s.len = 0 ∧ s.crc = crcInit
  | .sent => s.txCnt.toNat ≤ 7 ∧ s.len = 0 ∧ SendCrc s
  | .reading => s.txCnt = 8 ∧ ReadCrc s ∧ s.crc ≠ 0 ∧ NoEarlierZero s
  | .complete => s.txCnt = 8 ∧ ReadCrc s ∧ s.crc = 0 ∧ 2 ≤ s.len ∧ NoEarlierZero s
  | .timeout => s.txCnt = 8 ∧ ReadCrc s ∧ s.crc ≠ 0 ∧ NoEarlierZero s ∧ s.timeoutR < s.elapsed
  | .connError =>
      (s.txCnt.toNat ≤ 7 ∧ s.len = 0 ∧ SendCrc s) ∨ (s.txCnt = 8 ∧ ReadCrc s ∧ s.crc ≠ 0 ∧ NoEarlierZero s)
  | .encError => s.len = 0 ∧ s.crc = crcInit
  | .overflow => s.txCnt = 8 ∧ ReadCrc s ∧ s.crc ≠ 0 ∧ NoEarlierZero s ∧ s.params.respCap = some s.len

/-- The invariant of the block. -/
structure Inv (s : State) : Prop where
  params : ParamsOk s.params
  widths : WidthsOk s
  buffer : BufferOk s
  phase : PhaseOk s

/-! ### Runs -/

/-- `n` clock edges, ending at the first fault or refusal. -/
def run : Nat → State → Host.Outcome State Fault Refusal
  | 0, s => .next s
  | n + 1, s =>
    match step s with
    | .next t => run n t
    | .fault f => .fault f
    | .refused r => .refused r

/-- The output ports during each of the first `n` cycles of a run from `s`, in order. -/
def outputsOver : Nat → State → List Outputs
  | 0, _ => []
  | n + 1, s =>
    s.outputs :: match step s with
      | .next t => outputsOver n t
      | _ => []

/-- The bytes the link took on the TX stream in the first `n` cycles of a run from `s`, in order (R34). -/
def txTaken : Nat → State → List Byte
  | 0, _ => []
  | n + 1, s =>
    (if s.txHandshake then [s.outputs.txData] else []) ++ match step s with
      | .next t => txTaken n t
      | _ => []

/-- The bytes the block read from the RX stream in the first `n` cycles of a run from `s`, in order (R34). -/
def rxTaken : Nat → State → List Byte
  | 0, _ => []
  | n + 1, s =>
    (if s.rxHandshake then [s.inp.rxData] else []) ++ match step s with
      | .next t => rxTaken n t
      | _ => []

/-- The number of `tick_i` pulses sampled at the first `n` edges of a run from `s` (R83). -/
def ticksOver : Nat → State → Nat
  | 0, _ => 0
  | n + 1, s =>
    (if s.inp.tickI then 1 else 0) + match step s with
      | .next t => ticksOver n t
      | _ => 0

/-- Every state that a run from `s` holds during its first `n` cycles has the property `P`. -/
def During (n : Nat) (s : State) (P : State → Prop) : Prop :=
  ∀ m, m < n → ∀ u, run m s = .next u → P u

/-- A safe run: `n` edges pass without a fault or a refusal. -/
def SafeFor (n : Nat) (s : State) : Prop := ∃ t, run n s = .next t

end Sys2Proof.Machine
end

