-- ==== Sys2Proof/WellFormed.lean ====
section
/-! DEFINITION. The commands that are legal (R51). An ill-formed command still has its descriptor and still runs: its
acceptance raises `ENC_ERROR` (R76). -/

namespace Sys2Proof

/-- The encoding preconditions of R51 and R76, by operation. Every index is legal. -/
def Instr.wf : Instr → Bool
  | .toggle _ action => Machine.actionLegal action
  | .toggleAll action => Machine.actionLegal action
  | .pulse _ onMs => Machine.onMsLegal onMs
  | .getVer => true

end Sys2Proof
end

