-- ==== Sys2Proof/Certificates/Slice0/Obligations.lean ====
section
/-! DEFINITION. The statements for the provers. -/

open Sys2Proof Sys2Proof.Machine

/-! ### The CRC generator -/

/-- The values `spec/40_crc.md` R62, R66 and R68 print for whole sequences. -/
def Obligations.CrcWorkedExamples : Prop :=
  crcCompute [] = 0xFFFF ∧
  crcCompute [0x01, 0x03, 0x00, 0x00, 0x00, 0x0A] = 0xCDC5 ∧
  crcCompute [0x01, 0x03, 0x00, 0x00, 0x00, 0x0A, 0xC5, 0xCD] = 0x0000 ∧
  crcCompute [0x01, 0x03, 0x00, 0x00, 0x00, 0x0A, 0xCD, 0xC5] = 0x0606 ∧
  crcCompute [0x31, 0x32, 0x33, 0x34, 0x35, 0x36, 0x37, 0x38, 0x39] = 0x4B37

/-- R66: a sequence followed by its own CRC, low byte first, has CRC 0, whatever the sequence; and a sequence has CRC 0
exactly when its last two bytes are the CRC of the bytes before them. -/
def Obligations.CrcSelfVerification : Prop :=
  ∀ bytes : List Byte,
    crcCompute (bytes ++ [(crcCompute bytes).extractLsb' 0 8, (crcCompute bytes).extractLsb' 8 8]) = 0 ∧
    (crcCompute bytes = 0 ↔
      ∃ before, bytes = before ++ [(crcCompute before).extractLsb' 0 8, (crcCompute before).extractLsb' 8 8])

/-- R63: the table form and the closed form of the step equal the eight rounds of R61. -/
def Obligations.CrcTableAndClosedForms : Prop :=
  (∀ (c : Crc) (b : Byte), crcStep c b = (c >>> 8) ^^^ crcTable (c.extractLsb' 0 8 ^^^ b)) ∧
  ∀ x : Byte, crcTable x = crcTableClosed x

/-- R61: for a fixed byte the step is a bijection of the register, for a fixed register it is injective in the byte. -/
def Obligations.CrcStepLosesNothing : Prop :=
  (∀ b : Byte, Function.Bijective (fun c : Crc => crcStep c b)) ∧ ∀ c : Crc, Function.Injective (crcStep c)

/-- R68: the empty sequence; no one-byte sequence has CRC 0; `FF FF` is the only two-byte one; a checksum whose high byte
is 0 shows CRC 0 one byte early; a sequence of CRC 0 has the checksum `00 00` and keeps CRC 0 through it; the check value. -/
def Obligations.CrcCornerCases : Prop :=
  crcCompute [] = 0xFFFF ∧
  (∀ x : Byte, crcCompute [x] ≠ 0 ∧ crcCompute [x] = 0x00FF ^^^ crcTable (0xFF ^^^ x) ∧ crcTable x ≠ 0x00FF) ∧
  (∀ x y : Byte, crcCompute [x, y] = 0 ↔ x = 0xFF ∧ y = 0xFF) ∧
  (∀ bytes : List Byte, crcCompute (bytes ++ [lo (crcCompute bytes)]) = (hi (crcCompute bytes)).setWidth 16) ∧
  (∀ bytes : List Byte, crcCompute bytes = 0 →
    checksumBytes bytes = [0x00, 0x00] ∧ crcCompute (bytes ++ [0x00]) = 0 ∧ crcCompute (bytes ++ [0x00, 0x00]) = 0) ∧
  crcCompute [0x31, 0x32, 0x33, 0x34, 0x35, 0x36, 0x37, 0x38, 0x39] = 0x4B37

/-! ### The command descriptor -/

/-- Decoding the descriptor of a command gives the command back, with every operand at every value of its field,
legal or not. -/
def Obligations.DecodeOfEncode : Prop :=
  ∀ i : Instr, decode (encode i) = .ok i

/-- R50: a descriptor selects the row whose match value it has under the mask, and no row if `op` is reserved. -/
def Obligations.DecodeSelectsRowByMask : Prop :=
  ∀ d : Descriptor,
    (d &&& 0xFF0000000000 = 0x000000000000 →
      decode d = .ok (.toggle (d.extractLsb' 32 8) (d.extractLsb' 24 8))) ∧
    (d &&& 0xFF0000000000 = 0x010000000000 → decode d = .ok (.toggleAll (d.extractLsb' 24 8))) ∧
    (d &&& 0xFF0000000000 = 0x020000000000 →
      decode d = .ok (.pulse (d.extractLsb' 32 8) (d.extractLsb' 0 24))) ∧
    (d &&& 0xFF0000000000 = 0x030000000000 → decode d = .ok .getVer) ∧
    (4 ≤ (d.extractLsb' 40 8).toNat → decode d = .error (.reservedOp (d.extractLsb' 40 8)))

/-- R49: each field is read from its place, and a field that the operation does not use has no effect on the command. -/
def Obligations.DescriptorFieldsAndIgnoredFields : Prop :=
  ∀ (op index index' action action' : Byte) (onMs onMs' : OnMs),
    opField (packDescriptor op index action onMs) = op ∧
    indexField (packDescriptor op index action onMs) = index ∧
    actionField (packDescriptor op index action onMs) = action ∧
    onMsField (packDescriptor op index action onMs) = onMs ∧
    decode (packDescriptor 0x00 index action onMs) = decode (packDescriptor 0x00 index action onMs') ∧
    decode (packDescriptor 0x01 index action onMs) = decode (packDescriptor 0x01 index' action onMs') ∧
    decode (packDescriptor 0x02 index action onMs) = decode (packDescriptor 0x02 index action' onMs) ∧
    decode (packDescriptor 0x03 index action onMs) = decode (packDescriptor 0x03 index' action' onMs')

/-- Descriptors written out from R49 and R50 decode to the commands they stand for. -/
def Obligations.WrittenDescriptorsDecode : Prop :=
  decode 0x00FF55000000 = .ok (.toggle 0xFF 0x55) ∧
  decode 0x011255ABCDEF = .ok (.toggleAll 0x55) ∧
  decode 0x0203770005DC = .ok (.pulse 0x03 1500) ∧
  decode 0x03FFFFFFFFFF = .ok .getVer ∧
  decode 0x05FF55000000 = .error (.reservedOp 0x05)

/-! ### The frame encoder -/

/-- R75: for 0 to 9999 ticks the tick value is the decimal digits read as a base-16 numeral. -/
def Obligations.PulseTickIsDecimalReadAsHex : Prop :=
  ∀ t : Nat, t ≤ 9999 →
    (bcd16 t).toNat = t / 1000 % 10 * 4096 + t / 100 % 10 * 256 + t / 10 % 10 * 16 + t % 10 ∧
    (bcd16 t).toNat = Nat.ofDigits 16 (Nat.digits 10 t)

/-- R51: a descriptor is illegal in exactly three cases, and accepting one writes `state` to `ENC_ERROR` and nothing
else of the block. -/
def Obligations.IllegalDescriptorsExactly : Prop :=
  ∀ d : Descriptor,
    (encBody d = none ↔
      4 ≤ (opField d).toNat ∨
      ((opField d).toNat ≤ 1 ∧ actionField d ≠ 0xFF ∧ actionField d ≠ 0x00 ∧ actionField d ≠ 0x55) ∨
      (opField d = 0x02 ∧ 999999 < (onMsField d).toNat)) ∧
    ∀ s : State, s.phase = .idle → s.inp.rst = false → s.inp.cmdValid = true → s.inp.cmd = d → encBody d = none →
      step s = .next { s with phase := .encError, stim := s.stim.tail, cycle := s.cycle + 1 }

/-- R72: `TOGGLE_ALL` gives the frame of `TOGGLE 0xFF` for every action, legal or not, whatever its other fields hold;
the three frames. -/
def Obligations.ToggleAllDelegatesToToggle : Prop :=
  (∀ (index action : Byte) (onMs onMs' : OnMs),
    requestFrame (packDescriptor 0x01 index action onMs) = requestFrame (packDescriptor 0x00 0xFF action onMs')) ∧
  (∀ (index action : Byte) (onMs : OnMs),
    requestFrame (packDescriptor 0x01 index action onMs) = none ↔ action ≠ 0xFF ∧ action ≠ 0x00 ∧ action ≠ 0x55) ∧
  ∀ (index : Byte) (onMs : OnMs),
    requestFrame (packDescriptor 0x01 index 0xFF onMs) = some [0x01, 0x05, 0x00, 0xFF, 0xFF, 0x00, 0xBC, 0x0A] ∧
    requestFrame (packDescriptor 0x01 index 0x00 onMs) = some [0x01, 0x05, 0x00, 0xFF, 0x00, 0x00, 0xFD, 0xFA] ∧
    requestFrame (packDescriptor 0x01 index 0x55 onMs) = some [0x01, 0x05, 0x00, 0xFF, 0x55, 0x00, 0xC2, 0xAA]

/-- R45, R46, R77: a request is eight bytes, begins with the slave address and a function code, ends with the CRC of
its first six bytes, low byte first, and its own CRC is 0. -/
def Obligations.RequestFramesAreWellFormed : Prop :=
  ∀ (d : Descriptor) (f : List Byte), requestFrame d = some f →
    f.length = 8 ∧ f[0]? = some 0x01 ∧ (f[1]? = some 0x05 ∨ f[1]? = some 0x03) ∧
    f.drop 6 = [(crcCompute (f.take 6)).extractLsb' 0 8, (crcCompute (f.take 6)).extractLsb' 8 8] ∧
    crcCompute f = 0

/-! ### Acceptance of a command

Here and below a number in an input sample for `cmd_timeout` stands for what the TIMER_W wires of the port carry of it
(log 7). -/

/-- R71, R81: `TOGGLE`, accepted in `IDLE`. With a legal action it sets up its body and enters `SENT`, everything not
named as it was; with another action it raises `ENC_ERROR` and writes nothing else. Then the worked frame of R71. -/
def Obligations.ToggleStartsItsCommand : Prop :=
  (∀ (index action : Byte) (s : State), s.phase = .idle → action = 0xFF ∨ action = 0x00 ∨ action = 0x55 →
    exec (.toggle index action) s = .next { s with
      phase := .sent, body := ⟨0x01, 0x05, 0x00, index, action, 0x00⟩, crc := 0xFFFF, txCnt := 0, len := 0,
      elapsed := 0, timeoutR := s.inp.cmdTimeout % 2 ^ s.params.timerW }) ∧
  (∀ (index action : Byte) (s : State), s.phase = .idle → action ≠ 0xFF → action ≠ 0x00 → action ≠ 0x55 →
    exec (.toggle index action) s = .next { s with phase := .encError }) ∧
  requestFrame 0x00FF55000000 = some [0x01, 0x05, 0x00, 0xFF, 0x55, 0x00, 0xC2, 0xAA]

/-- R72, R81: `TOGGLE_ALL`, accepted in `IDLE`, with a legal and with an illegal action. -/
def Obligations.ToggleAllStartsItsCommand : Prop :=
  (∀ (action : Byte) (s : State), s.phase = .idle → action = 0xFF ∨ action = 0x00 ∨ action = 0x55 →
    exec (.toggleAll action) s = .next { s with
      phase := .sent, body := ⟨0x01, 0x05, 0x00, 0xFF, action, 0x00⟩, crc := 0xFFFF, txCnt := 0, len := 0,
      elapsed := 0, timeoutR := s.inp.cmdTimeout % 2 ^ s.params.timerW }) ∧
  ∀ (action : Byte) (s : State), s.phase = .idle → action ≠ 0xFF → action ≠ 0x00 → action ≠ 0x55 →
    exec (.toggleAll action) s = .next { s with phase := .encError }

/-- R73, R75, R81: `PULSE`, accepted in `IDLE`. With a legal on-time the two tick bytes hold the four decimal digits of
the number of ticks, one digit in each half of a byte; a longer on-time raises `ENC_ERROR` and writes nothing else.
Then the two worked frames of R73. -/
def Obligations.PulseStartsItsCommand : Prop :=
  (∀ (index : Byte) (onMs : OnMs) (s : State), s.phase = .idle → onMs.toNat ≤ 999999 →
    let ticks := onMs.toNat / 100
    exec (.pulse index onMs) s = .next { s with
      phase := .sent,
      body := ⟨0x01, 0x05, 0x02, index,
        BitVec.ofNat 8 (16 * (ticks / 1000) + ticks / 100 % 10), BitVec.ofNat 8 (16 * (ticks / 10 % 10) + ticks % 10)⟩,
      crc := 0xFFFF, txCnt := 0, len := 0, elapsed := 0, timeoutR := s.inp.cmdTimeout % 2 ^ s.params.timerW }) ∧
  (∀ (index : Byte) (onMs : OnMs) (s : State), s.phase = .idle → 999999 < onMs.toNat →
    exec (.pulse index onMs) s = .next { s with phase := .encError }) ∧
  requestFrame 0x0203000001F4 = some [0x01, 0x05, 0x02, 0x03, 0x00, 0x05, 0xFC, 0x71] ∧
  requestFrame 0x0203000005DC = some [0x01, 0x05, 0x02, 0x03, 0x00, 0x15, 0xFD, 0xBD]

/-- R74, R81: `GET_VER`, accepted in `IDLE`, and its one frame, whatever the unused fields hold. -/
def Obligations.GetVerStartsItsCommand : Prop :=
  (∀ s : State, s.phase = .idle →
    exec .getVer s = .next { s with
      phase := .sent, body := ⟨0x01, 0x03, 0x80, 0x00, 0x00, 0x01⟩, crc := 0xFFFF, txCnt := 0, len := 0,
      elapsed := 0, timeoutR := s.inp.cmdTimeout % 2 ^ s.params.timerW }) ∧
  ∀ (index action : Byte) (onMs : OnMs),
    requestFrame (packDescriptor 0x03 index action onMs) = some [0x01, 0x03, 0x80, 0x00, 0x00, 0x01, 0xAD, 0xCA]

/-- R24: `cmd_ready` is 1 in `IDLE` and nowhere else. That the meaning of a command leaves every other state as it is is
the model's reading of R24, log 11. -/
def Obligations.CommandsOutsideIdleHaveNoEffect : Prop :=
  ∀ (i : Instr) (s : State),
    (s.outputs.cmdReady = true ↔ s.phase = .idle) ∧ (s.phase ≠ .idle → exec i s = .next s)

/-- R80, R81: a step in `IDLE` with a valid descriptor is the decoded command, after which the next cycle's inputs are at
the ports (log 1). The second clause is the model's own choice and not the spec's: a state made by `withFetchWord` (log 2)
from a table word (log 19) is in that case. -/
def Obligations.StepRunsTheDecodedCommand : Prop :=
  (∀ (s : State) (i : Instr), s.phase = .idle → s.inp.rst = false → s.inp.cmdValid = true → decode s.inp.cmd = .ok i →
    step s = match exec i s with
      | .next t => .next { t with stim := t.stim.tail, cycle := t.cycle + 1 }
      | .fault f => .fault f
      | .refused r => .refused r) ∧
  ∀ (s : State) (nbits w : Nat) (i : Instr), decodeTableWord nbits w = some i →
    (s.withFetchWord nbits w).phase = .idle ∧ (s.withFetchWord nbits w).inp.rst = false ∧
    (s.withFetchWord nbits w).inp.cmdValid = true ∧ decode (s.withFetchWord nbits w).inp.cmd = .ok i

/-! ### One edge, state by state -/

/-- R115: an edge with `rst` at 1, in whatever state and with whatever other inputs, and the outputs after it. -/
def Obligations.ResetEdge : Prop :=
  ∀ s : State, s.inp.rst = true →
    ∃ t, step s = .next t ∧
      t = { s with phase := .idle, crc := 0xFFFF, txCnt := 0, len := 0, elapsed := 0, timeoutR := 0,
                   stim := s.stim.tail, cycle := s.cycle + 1 } ∧
      t.outputs = { cmdReady := true, txValid := false, txData := 0, txLast := false, rxReady := false,
                    linkReq := false, resValid := false, resStatus := 0, respLen := 0, rdData := t.outputs.rdData,
                    crcO := 0xFFFF, crcZeroO := false }

/-- The values R115 and R116 give after reset. What the two rules leave unspecified (`body`, `buf`) is the model's
choice of logs 3 and 4 and is not stated here. -/
def Obligations.ResetValues : Prop :=
  State.reset.phase = .idle ∧ State.reset.crc = 0xFFFF ∧ State.reset.txCnt = 0 ∧ State.reset.len = 0 ∧
  State.reset.elapsed = 0 ∧ State.reset.timeoutR = 0

/-- R81: the edge of `IDLE`. -/
def Obligations.IdleEdge : Prop :=
  ∀ s : State, s.phase = .idle → s.inp.rst = false →
    s.outputs.cmdReady = true ∧
    (s.inp.cmdValid = false → step s = .next { s with stim := s.stim.tail, cycle := s.cycle + 1 }) ∧
    (s.inp.cmdValid = true → encBody s.inp.cmd = none →
      step s = .next { s with phase := .encError, stim := s.stim.tail, cycle := s.cycle + 1 }) ∧
    ∀ B, s.inp.cmdValid = true → encBody s.inp.cmd = some B →
      ∃ t, step s = .next t ∧ t.outputs.linkReq = true ∧
        t = { s with phase := .sent, body := B, crc := 0xFFFF, txCnt := 0, len := 0, elapsed := 0,
                     timeoutR := s.inp.cmdTimeout % 2 ^ s.params.timerW,
                     stim := s.stim.tail, cycle := s.cycle + 1 }

/-- R82, with the tick counter of R83: the edge of `SENT`. A register that holds the CRC of the body bytes sent goes on
doing so, so that the checksum sent is the CRC of the body. -/
def Obligations.SentEdge : Prop :=
  ∀ s : State, s.phase = .sent → s.inp.rst = false →
    let e := if s.inp.tickI = true ∧ s.elapsed < 2 ^ (s.params.timerW + 1) - 1 then s.elapsed + 1 else s.elapsed
    s.outputs.txValid = true ∧ s.outputs.linkReq = true ∧ s.outputs.rxReady = false ∧
    s.outputs.txLast = decide (s.txCnt = 7) ∧
    (s.inp.linkErr = true →
      step s = .next { s with phase := .connError, elapsed := e, stim := s.stim.tail, cycle := s.cycle + 1 }) ∧
    (s.inp.linkErr = false → s.inp.txReady = false →
      step s = .next { s with elapsed := e, stim := s.stim.tail, cycle := s.cycle + 1 }) ∧
    (s.inp.linkErr = false → s.inp.txReady = true →
      (∀ b, s.txCnt.toNat ≤ 5 → s.body.bytes[s.txCnt.toNat]? = some b →
        s.outputs.txData = b ∧
        (s.crc = crcCompute (s.body.bytes.take s.txCnt.toNat) →
          crcStep s.crc b = crcCompute (s.body.bytes.take (s.txCnt.toNat + 1))) ∧
        step s = .next { s with crc := crcStep s.crc b, txCnt := s.txCnt + 1, elapsed := e,
                                stim := s.stim.tail, cycle := s.cycle + 1 }) ∧
      (s.txCnt = 6 →
        s.outputs.txData = s.crc.extractLsb' 0 8 ∧
        step s = .next { s with txCnt := 7, elapsed := e, stim := s.stim.tail, cycle := s.cycle + 1 }) ∧
      (s.txCnt = 7 →
        s.outputs.txData = s.crc.extractLsb' 8 8 ∧
        step s = .next { s with phase := .reading, crc := 0xFFFF, txCnt := 8, elapsed := e,
                                stim := s.stim.tail, cycle := s.cycle + 1 }))

/-- R83: `elapsed` counts ticks in `SENT` and `READING`, saturating, whatever transition the edge makes; the acceptance
of a valid command sets it to 0; in every other case but reset it holds. So during a command it is the number of ticks seen
since the cycle after acceptance, saturated. -/
def Obligations.ElapsedCounter : Prop :=
  (∀ s t : State, s.inp.rst = false → step s = .next t →
    t.elapsed =
      if s.phase = .sent ∨ s.phase = .reading then
        if s.inp.tickI = true ∧ s.elapsed < 2 ^ (s.params.timerW + 1) - 1 then s.elapsed + 1 else s.elapsed
      else if s.phase = .idle ∧ s.inp.cmdValid = true ∧ encBody s.inp.cmd ≠ none then 0
      else s.elapsed) ∧
  ∀ (n : Nat) (s t : State), s.phase = .sent → s.elapsed = 0 →
    During n s (fun u => u.phase.active = true ∧ u.inp.rst = false) → run n s = .next t →
    t.elapsed = min (ticksOver n s) (2 ^ (s.params.timerW + 1) - 1)

/-- R84, R87, R88: the tests of `READING` that come before a byte, in their order, and the wait. -/
def Obligations.ReadingEdgeWithoutByte : Prop :=
  ∀ s : State, s.phase = .reading → s.inp.rst = false →
    let e := if s.inp.tickI = true ∧ s.elapsed < 2 ^ (s.params.timerW + 1) - 1 then s.elapsed + 1 else s.elapsed
    s.outputs.linkReq = true ∧
    (s.timeoutR < s.elapsed →
      s.outputs.rxReady = false ∧
      step s = .next { s with phase := .timeout, elapsed := e, stim := s.stim.tail, cycle := s.cycle + 1 }) ∧
    (s.elapsed ≤ s.timeoutR → s.inp.linkErr = true →
      s.outputs.rxReady = false ∧
      step s = .next { s with phase := .connError, elapsed := e, stim := s.stim.tail, cycle := s.cycle + 1 }) ∧
    (s.elapsed ≤ s.timeoutR → s.inp.linkErr = false → s.inp.rxValid = false →
      s.outputs.rxReady = true ∧
      step s = .next { s with elapsed := e, stim := s.stim.tail, cycle := s.cycle + 1 })

/-- R85, R86, R89: one byte is read. With room it is stored at `len` and folded, and a zero CRC completes the command;
with the buffer full it is dropped. The register stays the CRC of the bytes received. -/
def Obligations.ReadingEdgeWithByte : Prop :=
  ∀ s : State, s.phase = .reading → s.inp.rst = false → s.elapsed ≤ s.timeoutR → s.inp.linkErr = false →
    s.inp.rxValid = true →
    let e := if s.inp.tickI = true ∧ s.elapsed < 2 ^ (s.params.timerW + 1) - 1 then s.elapsed + 1 else s.elapsed
    s.outputs.rxReady = true ∧
    (s.params.respCap = some s.len →
      step s = .next { s with phase := .overflow, elapsed := e, stim := s.stim.tail, cycle := s.cycle + 1 }) ∧
    ((∀ cap, s.params.respCap = some cap → s.len < cap) →
      ∃ t, step s = .next t ∧
        t = { s with phase := if crcStep s.crc s.inp.rxData = 0 then .complete else .reading,
                     crc := crcStep s.crc s.inp.rxData, len := s.len + 1, buf := t.buf, elapsed := e,
                     stim := s.stim.tail, cycle := s.cycle + 1 } ∧
        (s.crc = crcCompute s.received → t.crc = crcCompute t.received) ∧
        ∀ a, Memory.read t.buf a = if a = s.len then some s.inp.rxData else Memory.read s.buf a)

/-- R88: a link error in `SENT`, or in `READING` before the timeout has passed, ends the command in `CONN_ERROR`,
whatever else the edge offers, and no other edge comes there. -/
def Obligations.ConnectionErrorEndsTheCommand : Prop :=
  ∀ s : State, s.inp.rst = false →
    let e := if s.inp.tickI = true ∧ s.elapsed < 2 ^ (s.params.timerW + 1) - 1 then s.elapsed + 1 else s.elapsed
    (s.inp.linkErr = true → s.phase = .sent ∨ (s.phase = .reading ∧ s.elapsed ≤ s.timeoutR) →
      step s = .next { s with phase := .connError, elapsed := e, stim := s.stim.tail, cycle := s.cycle + 1 }) ∧
    ∀ t, step s = .next t → t.phase = .connError → s.phase ≠ .connError →
      s.inp.linkErr = true ∧ (s.phase = .sent ∨ (s.phase = .reading ∧ s.elapsed ≤ s.timeoutR))

/-- R90, R105: a terminal state reads `res_ack` only; its outputs, with the codes of R100. -/
def Obligations.TerminalEdge : Prop :=
  ∀ s : State, s.phase ≠ .idle → s.phase ≠ .sent → s.phase ≠ .reading → s.inp.rst = false →
    s.outputs.resValid = true ∧
    (s.phase = .complete → s.outputs.resStatus = 3) ∧
    (s.phase = .timeout → s.outputs.resStatus = 4) ∧
    (s.phase = .connError → s.outputs.resStatus = 5) ∧
    (s.phase = .encError → s.outputs.resStatus = 6) ∧
    (s.phase = .overflow → s.outputs.resStatus = 7) ∧
    s.outputs.linkReq = false ∧
    s.outputs.txValid = false ∧ s.outputs.rxReady = false ∧ s.outputs.cmdReady = false ∧
    (s.inp.resAck = true →
      step s = .next { s with phase := .idle, len := 0, crc := 0xFFFF, stim := s.stim.tail, cycle := s.cycle + 1 }) ∧
    (s.inp.resAck = false → step s = .next { s with stim := s.stim.tail, cycle := s.cycle + 1 })

/-! ### Rules over every state -/

/-- R80, R103: the transition table, first condition that holds first. -/
def Obligations.TransitionTable : Prop :=
  ∀ s t : State, step s = .next t →
    t.phase =
      if s.inp.rst = true then .idle
      else match s.phase with
        | .idle => if s.inp.cmdValid = true then (if encBody s.inp.cmd = none then .encError else .sent) else .idle
        | .sent =>
            if s.inp.linkErr = true then .connError
            else if s.inp.txReady = true ∧ s.txCnt = 7 then .reading else .sent
        | .reading =>
            if s.timeoutR < s.elapsed then .timeout
            else if s.inp.linkErr = true then .connError
            else if s.inp.rxValid = true ∧ s.params.respCap = some s.len then .overflow
            else if s.inp.rxValid = true ∧ crcStep s.crc s.inp.rxData = 0 then .complete
            else .reading
        | p => if s.inp.resAck = true then .idle else p

/-- R67: at each edge the CRC register is initialised, folds one byte or holds. At the edge that takes the eighth TX byte
two rows of R67 apply and the model initialises, as R82 does: log 13. -/
def Obligations.CrcRegisterOperations : Prop :=
  ∀ s t : State, step s = .next t →
    t.outputs.crcO = t.crc ∧ (t.outputs.crcZeroO = true ↔ t.crc = 0x0000) ∧
    t.crc =
      if s.inp.rst = true then 0xFFFF
      else match s.phase with
        | .idle => if s.inp.cmdValid = true ∧ encBody s.inp.cmd ≠ none then 0xFFFF else s.crc
        | .sent =>
            if s.inp.linkErr = false ∧ s.inp.txReady = true then
              if s.txCnt = 7 then 0xFFFF
              else match s.body.bytes[s.txCnt.toNat]? with
                | some b => crcStep s.crc b
                | none => s.crc
            else s.crc
        | .reading =>
            if s.elapsed ≤ s.timeoutR ∧ s.inp.linkErr = false ∧ s.inp.rxValid = true ∧
                s.params.respCap ≠ some s.len then crcStep s.crc s.inp.rxData
            else s.crc
        | _ => if s.inp.resAck = true then 0xFFFF else s.crc

/-- R18: the output ports as functions of the state, and for `rx_ready` of `link_err`, with the eight codes of R11 and
R100. An address below `len` is one that the wires of `rd_addr` carry, where `len` is at most RESP_CAP (R10). -/
def Obligations.OutputPorts : Prop :=
  ∀ s : State,
    s.outputs.cmdReady = decide (s.phase = .idle) ∧
    s.outputs.txValid = decide (s.phase = .sent) ∧
    (s.phase ≠ .sent → s.outputs.txData = 0x00) ∧
    (s.phase = .sent → ∀ b, s.txCnt.toNat ≤ 5 → s.body.bytes[s.txCnt.toNat]? = some b → s.outputs.txData = b) ∧
    (s.phase = .sent → s.txCnt = 6 → s.outputs.txData = s.crc.extractLsb' 0 8) ∧
    (s.phase = .sent → 7 ≤ s.txCnt.toNat → s.outputs.txData = s.crc.extractLsb' 8 8) ∧
    s.outputs.txLast = decide (s.phase = .sent ∧ s.txCnt = 7) ∧
    s.outputs.rxReady = decide (s.phase = .reading ∧ s.elapsed ≤ s.timeoutR ∧ s.inp.linkErr = false) ∧
    s.outputs.linkReq = decide (s.phase = .sent ∨ s.phase = .reading) ∧
    (s.outputs.resValid = true ↔
      s.phase = .complete ∨ s.phase = .timeout ∨ s.phase = .connError ∨ s.phase = .encError ∨ s.phase = .overflow) ∧
    (s.outputs.resStatus =
      match s.phase with
      | .idle => 0
      | .sent => 1
      | .reading => 2
      | .complete => 3
      | .timeout => 4
      | .connError => 5
      | .encError => 6
      | .overflow => 7) ∧
    s.outputs.respLen = s.len ∧
    ((∀ cap, s.params.respCap = some cap → s.len ≤ cap) →
      ∀ b, s.inp.rdAddr < s.len → Memory.read s.buf s.inp.rdAddr = some b → s.outputs.rdData = b) ∧
    s.outputs.crcO = s.crc ∧
    s.outputs.crcZeroO = decide (s.crc = 0x0000)

/-- R15, R34: a buffer byte changes only where an RX handshake with room in the buffer stores one, and that one is at
index `len` (R85, R89); reset and `res_ack` leave the buffer alone (R115, R90). It keeps its canonical form. That no
handshake is counted at a reset edge is log 20. -/
def Obligations.BufferFrame : Prop :=
  ∀ s t : State, step s = .next t →
    (∀ a, Memory.read t.buf a =
      if s.rxHandshake = true ∧ s.params.respCap ≠ some s.len ∧ a = s.len then some s.inp.rxData
      else Memory.read s.buf a) ∧
    (Memory.wf s.buf = true → Memory.wf t.buf = true)

/-- R13, R14, R109: who writes `body`, `timeout_r`, `tx_cnt` and `len`; the parameters are never written (R6). That
`timeout_r` takes the offered timeout modulo 2^TIMER_W is log 7, that no handshake is counted at a reset edge log 20. -/
def Obligations.RegisterFrame : Prop :=
  ∀ s t : State, step s = .next t →
    t.params = s.params ∧
    (∀ B, s.inp.rst = false → s.phase = .idle → s.inp.cmdValid = true → encBody s.inp.cmd = some B →
      t.body = B ∧ t.timeoutR = s.inp.cmdTimeout % 2 ^ s.params.timerW ∧ t.txCnt = 0 ∧ t.len = 0) ∧
    (s.inp.rst = true → t.body = s.body ∧ t.timeoutR = 0 ∧ t.txCnt = 0 ∧ t.len = 0) ∧
    (s.inp.rst = false → (s.phase ≠ .idle ∨ s.inp.cmdValid = false ∨ encBody s.inp.cmd = none) →
      t.body = s.body ∧ t.timeoutR = s.timeoutR ∧
      t.txCnt = (if s.txHandshake = true then s.txCnt + 1 else s.txCnt) ∧
      t.len =
        if s.rxHandshake = true ∧ s.params.respCap ≠ some s.len then s.len + 1
        else if s.outputs.resValid = true ∧ s.inp.resAck = true then 0 else s.len)

/-- R102, R93, R39: an edge depends only on the inputs that its state reads (R84, R85 for `READING`), and a reset edge on
none but `rst` (R103, R115). -/
def Obligations.IgnoredInputsHaveNoEffect : Prop :=
  ∀ (s : State) (i j : Inputs) (rest : List Inputs), i.rst = j.rst →
    (i.rst = true → step { s with stim := i :: rest } = step { s with stim := j :: rest }) ∧
    (s.phase = .idle → i.cmdValid = j.cmdValid →
      (i.cmdValid = true → i.cmd = j.cmd ∧ i.cmdTimeout = j.cmdTimeout) →
      step { s with stim := i :: rest } = step { s with stim := j :: rest }) ∧
    (s.phase = .sent → i.linkErr = j.linkErr → i.txReady = j.txReady → i.tickI = j.tickI →
      step { s with stim := i :: rest } = step { s with stim := j :: rest }) ∧
    (s.phase = .reading → i.linkErr = j.linkErr → i.rxValid = j.rxValid → (i.rxValid = true → i.rxData = j.rxData) →
      i.tickI = j.tickI →
      step { s with stim := i :: rest } = step { s with stim := j :: rest }) ∧
    (s.phase ≠ .idle → s.phase ≠ .sent → s.phase ≠ .reading → i.resAck = j.resAck →
      step { s with stim := i :: rest } = step { s with stim := j :: rest })

/-- R91: the block owns a connection from the cycle after a valid acceptance to the cycle in which a terminal state, or
reset, is entered. -/
def Obligations.ConnectionOwnership : Prop :=
  ∀ s t : State, step s = .next t →
    (s.outputs.linkReq = true ↔ s.phase = .sent ∨ s.phase = .reading) ∧
    (t.phase.terminal = true → t.outputs.linkReq = false) ∧
    (s.outputs.linkReq = false →
      (t.outputs.linkReq = true ↔
        s.inp.rst = false ∧ s.phase = .idle ∧ s.inp.cmdValid = true ∧ encBody s.inp.cmd ≠ none)) ∧
    (s.outputs.linkReq = true →
      (t.outputs.linkReq = false ↔ s.inp.rst = true ∨ t.phase.terminal = true))

/-- R6: `LEN_W` is the least width that holds every response length from 0 to `RESP_CAP`. -/
def Obligations.LenWidthHoldsEveryLength : Prop :=
  ∀ (p : Config.Params) (cap : Nat), p.respCap = some cap → 1 ≤ cap →
    ∃ w, lenW p = some w ∧ cap + 1 ≤ 2 ^ w ∧ ∀ v, cap + 1 ≤ 2 ^ v → w ≤ v

/-- R47: the field view of a sequence of at least four bytes, and no view of a shorter one; and that of a completed
buffer, by the indices of R47. That no other state has a view is log 22. -/
def Obligations.ResponseFieldView : Prop :=
  (∀ (slave function crcLow crcHigh : Byte) (payload : List Byte),
    viewBytes ([slave, function] ++ payload ++ [crcLow, crcHigh]) =
      some ⟨slave, function, payload, crcLow, crcHigh⟩) ∧
  (∀ bytes : List Byte, bytes.length < 4 → viewBytes bytes = none) ∧
  (∀ s : State, s.phase = .complete → (∀ a, a < s.len → Memory.read s.buf a ≠ none) →
    (s.len < 4 → s.responseView = none) ∧
    (4 ≤ s.len → ∃ v, s.responseView = some v ∧
      Memory.read s.buf 0 = some v.slave ∧
      Memory.read s.buf 1 = some v.function ∧
      v.payload.length = s.len - 4 ∧
      (∀ k, k < s.len - 4 → Memory.read s.buf (2 + k) = v.payload[k]?) ∧
      Memory.read s.buf (s.len - 2) = some v.crcLow ∧
      Memory.read s.buf (s.len - 1) = some v.crcHigh)) ∧
  ∀ s : State, s.phase ≠ .complete → s.responseView = none

/-! ### The invariant -/

/-- The invariant holds at reset. -/
def Obligations.ResetMeetsInvariant : Prop := Inv State.reset

/-- Every step keeps the invariant. -/
def Obligations.EveryStepKeepsInvariant : Prop :=
  ∀ s t : State, Inv s → step s = .next t → Inv t

/-- A state that meets the invariant has a next state: the block never stops (R69, R100: an error outcome is a state). -/
def Obligations.GoodStatesHaveANextState : Prop :=
  ∀ s : State, Inv s → ∃ t, step s = .next t

/-- Every run from a state that meets the invariant is safe, for any number of edges and any inputs. -/
def Obligations.GoodStatesRunSafely : Prop :=
  ∀ (n : Nat) (s : State), Inv s → ∃ t, run n s = .next t ∧ Inv t

/-- R6, R89: with an infinite RESP_CAP no edge enters `OVERFLOW`. -/
def Obligations.InfiniteBufferNeverOverflows : Prop :=
  ∀ s t : State, s.params.respCap = none → s.phase ≠ .overflow → step s = .next t → t.phase ≠ .overflow

/-! ### Runs -/

/-- R77, R82, R37: from the acceptance of a command on, the bytes the link takes while the block is in `SENT` are a
prefix of the request frame, in order; when the block comes to `READING` they are the whole frame. -/
def Obligations.TxStreamIsTheRequestFrame : Prop :=
  ∀ (s t : State) (f : List Byte), s.phase = .idle → s.inp.rst = false → s.inp.cmdValid = true →
    requestFrame s.inp.cmd = some f → step s = .next t →
    ∀ n : Nat, During n t (fun u => u.phase = .sent) →
      txTaken n t <+: f ∧ ∀ u, run n t = .next u → u.phase = .reading → txTaken n t = f

/-- R130: with a link that takes every byte, a valid command is in `READING`, ready for its first response byte, nine
edges after its acceptance was offered, and its frame was sent. -/
def Obligations.EightReadyCyclesSendTheFrame : Prop :=
  ∀ (s : State) (a : Inputs) (l rest : List Inputs) (f : List Byte), s.phase = .idle → s.stim = a :: (l ++ rest) →
    a.rst = false → a.cmdValid = true → requestFrame a.cmd = some f → l.length = 8 →
    (∀ i ∈ l, i.rst = false ∧ i.linkErr = false ∧ i.txReady = true) →
    ∃ t, run 9 s = .next t ∧ t.phase = .reading ∧ t.txCnt = 8 ∧ t.crc = 0xFFFF ∧ t.len = 0 ∧ t.stim = rest ∧
      txTaken 9 s = f

/-- R37, R86, R121: from the start of `READING` the buffer holds the bytes read, in order, where the last edge neither
overflowed (that edge is `ReadingEdgeWithByte`) nor was a reset; in `COMPLETE` they are the shortest non-empty prefix of
the bytes read whose CRC is 0. -/
def Obligations.CompleteAtFirstZeroCrc : Prop :=
  ∀ (n : Nat) (s t : State), Inv s → s.phase = .reading → s.len = 0 → During n s (fun u => u.phase = .reading) →
    run n s = .next t →
    (t.phase ≠ .idle → t.phase ≠ .overflow → t.received = rxTaken n s) ∧
    (t.phase = .complete →
      2 ≤ (rxTaken n s).length ∧ crcCompute (rxTaken n s) = 0 ∧
      ∀ k, 0 < k → k < (rxTaken n s).length → crcCompute ((rxTaken n s).take k) ≠ 0)

/-- R87: `TIMEOUT` is entered only after more ticks than the timeout have been counted since acceptance. -/
def Obligations.TimeoutNeverEarly : Prop :=
  ∀ (n : Nat) (s t : State), s.phase = .sent → s.elapsed = 0 →
    During n s (fun u => u.phase.active = true ∧ u.inp.rst = false) →
    run n s = .next t → t.phase = .timeout → s.timeoutR < ticksOver n s

/-- R87, R127: once more ticks than the timeout are counted, a command in `READING` reaches a terminal state at the
latest one cycle later, whatever the peer does. -/
def Obligations.TimeoutNeverLate : Prop :=
  ∀ (n : Nat) (s : State), Inv s → s.phase = .reading → During (n + 1) s (fun u => u.inp.rst = false) →
    s.timeoutR < s.elapsed + ticksOver n s →
    ∃ m u, m ≤ n + 1 ∧ run m s = .next u ∧ u.phase.terminal = true

/-- R22: whatever two idle states were left with by earlier commands, once each accepts the same valid command under
the same inputs, every output of every later cycle is the same. -/
def Obligations.NothingSurvivesACommand : Prop :=
  ∀ s s' t t' : State, s.phase = .idle → s'.phase = .idle → s.params = s'.params → s.stim = s'.stim →
    s.cycle = s'.cycle → s.inp.rst = false → s.inp.cmdValid = true → encBody s.inp.cmd ≠ none →
    step s = .next t → step s' = .next t' →
    t = { t' with buf := t.buf } ∧ ∀ n : Nat, outputsOver n t = outputsOver n t'

/-! ### The buffer read port -/

/-- The port `rd_addr` has LEN_W wires, so the buffer is read at the low LEN_W bits of the number in an input sample:
the model's reading of R17, log 7. -/
def Obligations.BufferReadSeesTheAddressWires : Prop :=
  ∀ (s : State) (w : Nat) (b : Byte), lenW s.params = some w → s.inp.rdAddr % 2 ^ w < s.len →
    Memory.read s.buf (s.inp.rdAddr % 2 ^ w) = some b → s.outputs.rdData = b
end

