-- ==== Sys2Proof/Laws/Memory.lean ====
section
/-! SUPPORT. The laws of the response buffer as a memory: read after write, and the canonical form (R30, R35). -/

namespace Sys2Proof.Machine

@[simp] theorem unlisted_eq : Memory.unlisted = none := rfl

@[simp] theorem read_nil (a : Nat) : Memory.read [] a = none := rfl

/-- A write puts its byte at its index and leaves every other index as it was. -/
theorem read_write (m : Memory) (a k : Nat) (v : Byte) :
    Memory.read (Memory.write m a v) k = if k = a then some v else Memory.read m k := by
  induction m with
  | nil => simp [Memory.write, Memory.read, eq_comm]
  | cons c m ih =>
    obtain ⟨j, w⟩ := c
    simp only [Memory.write]
    split_ifs <;> simp_all [Memory.read] <;> grind

@[simp] theorem read_write_same (m : Memory) (a : Nat) (v : Byte) : Memory.read (Memory.write m a v) a = some v := by
  simp [read_write]

theorem read_write_other (m : Memory) {a k : Nat} (v : Byte) (h : k ≠ a) :
    Memory.read (Memory.write m a v) k = Memory.read m k := by
  simp [read_write, h]

theorem above_write (m : Memory) {j a : Nat} (v : Byte) (hj : j < a) (h : Memory.above j m = true) :
    Memory.above j (Memory.write m a v) = true := by
  induction m with
  | nil => simp [Memory.write, Memory.above, hj]
  | cons c m ih =>
    obtain ⟨k, w⟩ := c
    simp only [Memory.above, List.all_cons, Bool.and_eq_true, decide_eq_true_eq] at h ih
    simp only [Memory.write]
    split_ifs <;> simp only [Memory.above, List.all_cons, Bool.and_eq_true, decide_eq_true_eq]
    · exact ⟨hj, h⟩
    · exact ⟨hj, h.2⟩
    · exact ⟨h.1, ih h.2⟩

theorem above_mono (m : Memory) {j k : Nat} (hjk : j ≤ k) (h : Memory.above k m = true) : Memory.above j m = true := by
  simp only [Memory.above, List.all_eq_true, decide_eq_true_eq] at h ⊢
  exact fun c hc => lt_of_le_of_lt hjk (h c hc)

/-- A write keeps the canonical form. -/
theorem write_wf (m : Memory) (a : Nat) (v : Byte) (h : Memory.wf m = true) : Memory.wf (Memory.write m a v) = true := by
  induction m with
  | nil => simp [Memory.write, Memory.wf, Memory.above]
  | cons c m ih =>
    obtain ⟨k, w⟩ := c
    simp only [Memory.wf, Bool.and_eq_true] at h
    simp only [Memory.write]
    split_ifs with h1 h2
    · simp only [Memory.wf, Bool.and_eq_true]
      refine ⟨?_, h⟩
      have hk := above_mono m (le_of_lt h1) h.1
      simp only [Memory.above, List.all_cons, Bool.and_eq_true, decide_eq_true_eq] at hk ⊢
      exact ⟨h1, hk⟩
    · subst h2; simpa [Memory.wf] using h
    · simp only [Memory.wf, Bool.and_eq_true]
      exact ⟨above_write m v (by omega) h.1, ih h.2⟩

/-- No index at or below a lower bound of the memory is listed. -/
theorem read_above (m : Memory) {k a : Nat} (h : Memory.above k m = true) (ha : a ≤ k) : Memory.read m a = none := by
  induction m with
  | nil => rfl
  | cons c m ih =>
    obtain ⟨j, w⟩ := c
    simp only [Memory.above, List.all_cons, Bool.and_eq_true, decide_eq_true_eq] at h ih
    simp [Memory.read, show ¬ j = a by omega, ih h.2]

/-- Two memories in canonical form that read the same are the same data. -/
theorem wf_ext (m n : Memory) (hm : Memory.wf m = true) (hn : Memory.wf n = true)
    (h : ∀ a, Memory.read m a = Memory.read n a) : m = n := by
  induction m generalizing n with
  | nil =>
    cases n with
    | nil => rfl
    | cons c n => have := h c.1; simp [Memory.read] at this
  | cons c m ih =>
    obtain ⟨k, v⟩ := c
    cases n with
    | nil => have := h k; simp [Memory.read] at this
    | cons d n =>
      obtain ⟨j, w⟩ := d
      simp only [Memory.wf, Bool.and_eq_true] at hm hn
      have hkj : k = j := by
        rcases Nat.lt_trichotomy k j with hlt | heq | hgt
        · have h1 := h k
          simp [Memory.read, show ¬ j = k by omega, read_above n hn.1 (le_of_lt hlt)] at h1
        · exact heq
        · have h1 := h j
          simp [Memory.read, show ¬ k = j by omega, read_above m hm.1 (le_of_lt hgt)] at h1
      subst hkj
      have hvw : v = w := by simpa [Memory.read] using h k
      subst hvw
      congr 1
      refine ih n hm.2 hn.2 fun a => ?_
      by_cases ha : k = a
      · subst ha; rw [read_above m hm.1 le_rfl, read_above n hn.1 le_rfl]
      · simpa [Memory.read, ha] using h a

/-- The buffer of the reset state is in canonical form. -/
theorem reset_buf_wf : Memory.wf State.reset.buf = true := rfl

/-- The reset state lists no byte of the buffer. -/
@[simp] theorem reset_buf_read (a : Nat) : Memory.read State.reset.buf a = none := rfl

end Sys2Proof.Machine
end

