-- ==== Sys2Proof/Laws/Crc.lean ====
section
/-! SUPPORT. Small lemmas of the CRC functions and of the bytes received. -/

namespace Sys2Proof.Machine

@[simp] theorem crcCompute_nil : crcCompute [] = crcInit := rfl

/-- The running register gives the CRC of the whole sequence (R65). -/
theorem crcCompute_append_one (bs : List Byte) (b : Byte) : crcCompute (bs ++ [b]) = crcStep (crcCompute bs) b := by
  simp [crcCompute]

theorem crcCompute_append (as bs : List Byte) : crcCompute (as ++ bs) = bs.foldl crcStep (crcCompute as) := by
  simp [crcCompute]

/-- The eight rounds of R61, written out. -/
theorem crcStep_eq (c : Crc) (b : Byte) :
    crcStep c b = crcRound (crcRound (crcRound (crcRound (crcRound (crcRound (crcRound (crcRound
      (c ^^^ b.setWidth 16)))))))) := rfl

/-- The step depends on the low byte of the register and on the byte only through their exclusive or (R61). -/
theorem crcStep_xor (c : Crc) (b : Byte) : crcStep c b = crcRounds 8 (c ^^^ b.setWidth 16) := rfl

/-! ### The bytes received -/

@[simp] theorem received_len_zero {s : State} (h : s.len = 0) : s.received = [] := by simp [State.received, h]

/-- The bytes received depend on `len` and on the buffer below it. -/
theorem received_congr {s t : State} (hl : s.len = t.len)
    (h : ∀ a, a < t.len → Memory.read s.buf a = Memory.read t.buf a) : s.received = t.received := by
  unfold State.received
  rw [hl]
  exact List.filterMap_congr fun a ha => h a (List.mem_range.mp ha)

/-- A stored byte is appended to the bytes received (R85). -/
theorem received_store (b : Byte) (s t : State) (hl : t.len = s.len + 1) (hb : t.buf = Memory.write s.buf s.len b) :
    t.received = s.received ++ [b] := by
  unfold State.received
  rw [hl, hb, List.range_succ, List.filterMap_append]
  congr 1
  · exact List.filterMap_congr fun a ha => read_write_other _ _ (Nat.ne_of_lt (List.mem_range.mp ha))
  · simp

/-- Where every byte below `len` is written, `len` bytes were received. -/
theorem received_length {s : State} (h : ∀ a, a < s.len → Memory.read s.buf a ≠ none) : s.received.length = s.len := by
  unfold State.received
  rw [List.length_filterMap_eq_countP]
  conv_rhs => rw [← List.length_range (n := s.len)]
  rw [List.countP_eq_length]
  intro a ha
  exact Option.ne_none_iff_isSome.mp (h a (List.mem_range.mp ha))

/-- Where every byte below `len` is written, byte `k` received is `buf[k]` (R15). -/
theorem received_getElem? {s : State} (h : ∀ a, a < s.len → Memory.read s.buf a ≠ none) {k : Nat} (hk : k < s.len) :
    s.received[k]? = Memory.read s.buf k := by
  have hmap : s.received.map some = (List.range s.len).map (Memory.read s.buf) := by
    unfold State.received
    rw [List.map_filterMap, ← List.filterMap_eq_map]
    refine List.filterMap_congr fun a ha => ?_
    have hw := h a (List.mem_range.mp ha)
    cases hr : Memory.read s.buf a <;> simp_all
  have hk' := congrArg (·[k]?) hmap
  simp only [List.getElem?_map, List.getElem?_range hk, Option.map_some] at hk'
  cases hr : s.received[k]? <;> simp_all

end Sys2Proof.Machine
end

