-- ==== Sys2Proof/Laws/State.lean ====
section
/-! SUPPORT. One lemma for each field and each update of the state, so that no later proof unfolds a record update. -/

namespace Sys2Proof.Machine

/-! ### The clock edge is past (`State.advance`). -/

@[simp] theorem advance_phase (s : State) : s.advance.phase = s.phase := rfl
@[simp] theorem advance_crc (s : State) : s.advance.crc = s.crc := rfl
@[simp] theorem advance_body (s : State) : s.advance.body = s.body := rfl
@[simp] theorem advance_txCnt (s : State) : s.advance.txCnt = s.txCnt := rfl
@[simp] theorem advance_len (s : State) : s.advance.len = s.len := rfl
@[simp] theorem advance_buf (s : State) : s.advance.buf = s.buf := rfl
@[simp] theorem advance_elapsed (s : State) : s.advance.elapsed = s.elapsed := rfl
@[simp] theorem advance_timeoutR (s : State) : s.advance.timeoutR = s.timeoutR := rfl
@[simp] theorem advance_params (s : State) : s.advance.params = s.params := rfl
@[simp] theorem advance_stim (s : State) : s.advance.stim = s.stim.tail := rfl
@[simp] theorem advance_cycle (s : State) : s.advance.cycle = s.cycle + 1 := rfl

/-! ### Raising an outcome writes `state` only (R104). -/

@[simp] theorem raise_phase (o : ErrorOutcome) (s : State) : (raise o s).phase = o.phase := rfl
@[simp] theorem raise_crc (o : ErrorOutcome) (s : State) : (raise o s).crc = s.crc := rfl
@[simp] theorem raise_body (o : ErrorOutcome) (s : State) : (raise o s).body = s.body := rfl
@[simp] theorem raise_txCnt (o : ErrorOutcome) (s : State) : (raise o s).txCnt = s.txCnt := rfl
@[simp] theorem raise_len (o : ErrorOutcome) (s : State) : (raise o s).len = s.len := rfl
@[simp] theorem raise_buf (o : ErrorOutcome) (s : State) : (raise o s).buf = s.buf := rfl
@[simp] theorem raise_elapsed (o : ErrorOutcome) (s : State) : (raise o s).elapsed = s.elapsed := rfl
@[simp] theorem raise_timeoutR (o : ErrorOutcome) (s : State) : (raise o s).timeoutR = s.timeoutR := rfl
@[simp] theorem raise_params (o : ErrorOutcome) (s : State) : (raise o s).params = s.params := rfl
@[simp] theorem raise_stim (o : ErrorOutcome) (s : State) : (raise o s).stim = s.stim := rfl
@[simp] theorem raise_cycle (o : ErrorOutcome) (s : State) : (raise o s).cycle = s.cycle := rfl

/-! ### The return from a terminal state (R90). -/

@[simp] theorem returnToIdle_phase (s : State) : (returnToIdle s).phase = .idle := rfl
@[simp] theorem returnToIdle_crc (s : State) : (returnToIdle s).crc = crcInit := rfl
@[simp] theorem returnToIdle_body (s : State) : (returnToIdle s).body = s.body := rfl
@[simp] theorem returnToIdle_txCnt (s : State) : (returnToIdle s).txCnt = s.txCnt := rfl
@[simp] theorem returnToIdle_len (s : State) : (returnToIdle s).len = 0 := rfl
@[simp] theorem returnToIdle_buf (s : State) : (returnToIdle s).buf = s.buf := rfl
@[simp] theorem returnToIdle_elapsed (s : State) : (returnToIdle s).elapsed = s.elapsed := rfl
@[simp] theorem returnToIdle_timeoutR (s : State) : (returnToIdle s).timeoutR = s.timeoutR := rfl
@[simp] theorem returnToIdle_params (s : State) : (returnToIdle s).params = s.params := rfl
@[simp] theorem returnToIdle_stim (s : State) : (returnToIdle s).stim = s.stim := rfl
@[simp] theorem returnToIdle_cycle (s : State) : (returnToIdle s).cycle = s.cycle := rfl

/-! ### The reset edge (R115). -/

@[simp] theorem resetEdge_phase (s : State) : (resetEdge s).phase = .idle := rfl
@[simp] theorem resetEdge_crc (s : State) : (resetEdge s).crc = crcInit := rfl
@[simp] theorem resetEdge_body (s : State) : (resetEdge s).body = s.body := rfl
@[simp] theorem resetEdge_txCnt (s : State) : (resetEdge s).txCnt = 0 := rfl
@[simp] theorem resetEdge_len (s : State) : (resetEdge s).len = 0 := rfl
@[simp] theorem resetEdge_buf (s : State) : (resetEdge s).buf = s.buf := rfl
@[simp] theorem resetEdge_elapsed (s : State) : (resetEdge s).elapsed = 0 := rfl
@[simp] theorem resetEdge_timeoutR (s : State) : (resetEdge s).timeoutR = 0 := rfl
@[simp] theorem resetEdge_params (s : State) : (resetEdge s).params = s.params := rfl
@[simp] theorem resetEdge_stim (s : State) : (resetEdge s).stim = s.stim := rfl
@[simp] theorem resetEdge_cycle (s : State) : (resetEdge s).cycle = s.cycle := rfl

/-! ### The acceptance of a valid command (R81). -/

@[simp] theorem startCommand_phase (B : Body) (s : State) : (startCommand B s).phase = .sent := rfl
@[simp] theorem startCommand_crc (B : Body) (s : State) : (startCommand B s).crc = crcInit := rfl
@[simp] theorem startCommand_body (B : Body) (s : State) : (startCommand B s).body = B := rfl
@[simp] theorem startCommand_txCnt (B : Body) (s : State) : (startCommand B s).txCnt = 0 := rfl
@[simp] theorem startCommand_len (B : Body) (s : State) : (startCommand B s).len = 0 := rfl
@[simp] theorem startCommand_buf (B : Body) (s : State) : (startCommand B s).buf = s.buf := rfl
@[simp] theorem startCommand_elapsed (B : Body) (s : State) : (startCommand B s).elapsed = 0 := rfl
@[simp] theorem startCommand_timeoutR (B : Body) (s : State) : (startCommand B s).timeoutR = s.sampledTimeout := rfl
@[simp] theorem startCommand_params (B : Body) (s : State) : (startCommand B s).params = s.params := rfl
@[simp] theorem startCommand_stim (B : Body) (s : State) : (startCommand B s).stim = s.stim := rfl
@[simp] theorem startCommand_cycle (B : Body) (s : State) : (startCommand B s).cycle = s.cycle := rfl

/-! ### The CRC register is initialised (R67). -/

@[simp] theorem crcReset_phase (s : State) : (crcReset s).phase = s.phase := rfl
@[simp] theorem crcReset_crc (s : State) : (crcReset s).crc = crcInit := rfl
@[simp] theorem crcReset_body (s : State) : (crcReset s).body = s.body := rfl
@[simp] theorem crcReset_txCnt (s : State) : (crcReset s).txCnt = s.txCnt := rfl
@[simp] theorem crcReset_len (s : State) : (crcReset s).len = s.len := rfl
@[simp] theorem crcReset_buf (s : State) : (crcReset s).buf = s.buf := rfl
@[simp] theorem crcReset_elapsed (s : State) : (crcReset s).elapsed = s.elapsed := rfl
@[simp] theorem crcReset_timeoutR (s : State) : (crcReset s).timeoutR = s.timeoutR := rfl
@[simp] theorem crcReset_params (s : State) : (crcReset s).params = s.params := rfl
@[simp] theorem crcReset_stim (s : State) : (crcReset s).stim = s.stim := rfl
@[simp] theorem crcReset_cycle (s : State) : (crcReset s).cycle = s.cycle := rfl

/-! ### A byte is folded into the CRC register (R67). -/

@[simp] theorem crcFold_phase (b : Byte) (s : State) : (crcFold b s).phase = s.phase := rfl
@[simp] theorem crcFold_crc (b : Byte) (s : State) : (crcFold b s).crc = crcStep s.crc b := rfl
@[simp] theorem crcFold_body (b : Byte) (s : State) : (crcFold b s).body = s.body := rfl
@[simp] theorem crcFold_txCnt (b : Byte) (s : State) : (crcFold b s).txCnt = s.txCnt := rfl
@[simp] theorem crcFold_len (b : Byte) (s : State) : (crcFold b s).len = s.len := rfl
@[simp] theorem crcFold_buf (b : Byte) (s : State) : (crcFold b s).buf = s.buf := rfl
@[simp] theorem crcFold_elapsed (b : Byte) (s : State) : (crcFold b s).elapsed = s.elapsed := rfl
@[simp] theorem crcFold_timeoutR (b : Byte) (s : State) : (crcFold b s).timeoutR = s.timeoutR := rfl
@[simp] theorem crcFold_params (b : Byte) (s : State) : (crcFold b s).params = s.params := rfl
@[simp] theorem crcFold_stim (b : Byte) (s : State) : (crcFold b s).stim = s.stim := rfl
@[simp] theorem crcFold_cycle (b : Byte) (s : State) : (crcFold b s).cycle = s.cycle := rfl

/-! ### A received byte is stored (R85). -/

@[simp] theorem storeRxByte_phase (b : Byte) (s : State) : (storeRxByte b s).phase = if crcStep s.crc b = 0 then .complete else s.phase := rfl
@[simp] theorem storeRxByte_crc (b : Byte) (s : State) : (storeRxByte b s).crc = crcStep s.crc b := rfl
@[simp] theorem storeRxByte_body (b : Byte) (s : State) : (storeRxByte b s).body = s.body := rfl
@[simp] theorem storeRxByte_txCnt (b : Byte) (s : State) : (storeRxByte b s).txCnt = s.txCnt := rfl
@[simp] theorem storeRxByte_len (b : Byte) (s : State) : (storeRxByte b s).len = s.len + 1 := rfl
@[simp] theorem storeRxByte_buf (b : Byte) (s : State) : (storeRxByte b s).buf = Memory.write s.buf s.len b := rfl
@[simp] theorem storeRxByte_elapsed (b : Byte) (s : State) : (storeRxByte b s).elapsed = s.elapsed := rfl
@[simp] theorem storeRxByte_timeoutR (b : Byte) (s : State) : (storeRxByte b s).timeoutR = s.timeoutR := rfl
@[simp] theorem storeRxByte_params (b : Byte) (s : State) : (storeRxByte b s).params = s.params := rfl
@[simp] theorem storeRxByte_stim (b : Byte) (s : State) : (storeRxByte b s).stim = s.stim := rfl
@[simp] theorem storeRxByte_cycle (b : Byte) (s : State) : (storeRxByte b s).cycle = s.cycle := rfl

/-! ### The tick counter writes `elapsed` only (R83). -/

@[simp] theorem countTick_phase (tick : Bool) (s : State) : (countTick tick s).phase = s.phase := by
  unfold countTick; split <;> rfl
@[simp] theorem countTick_crc (tick : Bool) (s : State) : (countTick tick s).crc = s.crc := by
  unfold countTick; split <;> rfl
@[simp] theorem countTick_body (tick : Bool) (s : State) : (countTick tick s).body = s.body := by
  unfold countTick; split <;> rfl
@[simp] theorem countTick_txCnt (tick : Bool) (s : State) : (countTick tick s).txCnt = s.txCnt := by
  unfold countTick; split <;> rfl
@[simp] theorem countTick_len (tick : Bool) (s : State) : (countTick tick s).len = s.len := by
  unfold countTick; split <;> rfl
@[simp] theorem countTick_buf (tick : Bool) (s : State) : (countTick tick s).buf = s.buf := by
  unfold countTick; split <;> rfl
theorem countTick_elapsed (tick : Bool) (s : State) :
    (countTick tick s).elapsed = if tick && decide (s.elapsed < elapsedMax s.params) then s.elapsed + 1 else s.elapsed := by
  unfold countTick; split <;> rfl
@[simp] theorem countTick_timeoutR (tick : Bool) (s : State) : (countTick tick s).timeoutR = s.timeoutR := by
  unfold countTick; split <;> rfl
@[simp] theorem countTick_params (tick : Bool) (s : State) : (countTick tick s).params = s.params := by
  unfold countTick; split <;> rfl
@[simp] theorem countTick_stim (tick : Bool) (s : State) : (countTick tick s).stim = s.stim := by
  unfold countTick; split <;> rfl
@[simp] theorem countTick_cycle (tick : Bool) (s : State) : (countTick tick s).cycle = s.cycle := by
  unfold countTick; split <;> rfl

/-! ### A byte taken by the link writes `state`, `crc` and `tx_cnt` only (R82). -/

@[simp] theorem takeTxByte_body (s : State) : (takeTxByte s).body = s.body := by
  unfold takeTxByte; repeat' split
  all_goals rfl
@[simp] theorem takeTxByte_len (s : State) : (takeTxByte s).len = s.len := by
  unfold takeTxByte; repeat' split
  all_goals rfl
@[simp] theorem takeTxByte_buf (s : State) : (takeTxByte s).buf = s.buf := by
  unfold takeTxByte; repeat' split
  all_goals rfl
@[simp] theorem takeTxByte_elapsed (s : State) : (takeTxByte s).elapsed = s.elapsed := by
  unfold takeTxByte; repeat' split
  all_goals rfl
@[simp] theorem takeTxByte_timeoutR (s : State) : (takeTxByte s).timeoutR = s.timeoutR := by
  unfold takeTxByte; repeat' split
  all_goals rfl
@[simp] theorem takeTxByte_params (s : State) : (takeTxByte s).params = s.params := by
  unfold takeTxByte; repeat' split
  all_goals rfl
@[simp] theorem takeTxByte_stim (s : State) : (takeTxByte s).stim = s.stim := by
  unfold takeTxByte; repeat' split
  all_goals rfl
@[simp] theorem takeTxByte_cycle (s : State) : (takeTxByte s).cycle = s.cycle := by
  unfold takeTxByte; repeat' split
  all_goals rfl
@[simp] theorem takeTxByte_txCnt (s : State) : (takeTxByte s).txCnt = s.txCnt + 1 := rfl
@[simp] theorem takeTxByte_phase (s : State) :
    (takeTxByte s).phase = if s.txCnt = 7 then .reading else s.phase := by
  unfold takeTxByte; repeat' split
  all_goals rfl

/-! ### The schedule -/

/-- With a sample in the schedule, it is the one that is sampled. -/
@[simp] theorem inp_cons (s : State) (i : Inputs) (l : List Inputs) (h : s.stim = i :: l) : s.inp = i := by
  simp [State.inp, h]

/-- Two states with the same schedule and cycle sample the same inputs. -/
theorem inp_congr {s t : State} (hs : s.stim = t.stim) (hc : s.cycle = t.cycle) : s.inp = t.inp := by
  simp [State.inp, hs, hc]

end Sys2Proof.Machine
end

