-- ==== Sys2Proof/Laws/Ops.lean ====
section
/-! SUPPORT. For each shared operation, once, all it can do; and the one inversion lemma of the step function. -/

namespace Sys2Proof.Machine

/-! ### The buffer address port -/

/-- An address below `len` is one that the LEN_W wires of `rd_addr` carry (R6, R10). -/
theorem sampledRdAddr_of_lt {s : State} (hl : ∀ cap, s.params.respCap = some cap → s.len ≤ cap)
    (h : s.inp.rdAddr < s.len) : s.sampledRdAddr = s.inp.rdAddr := by
  unfold State.sampledRdAddr lenW
  cases hc : s.params.respCap with
  | none => rfl
  | some cap =>
    have hcap := hl cap hc
    have hlog := @Nat.lt_log2_self cap
    exact Nat.mod_eq_of_lt (by omega)

/-! ### Acceptance of a command -/

theorem acceptCommand_valid {s : State} (h : s.phase = .idle) (B : Body) :
    acceptCommand (some B) s = startCommand B s := by simp [acceptCommand, h]

theorem acceptCommand_invalid {s : State} (h : s.phase = .idle) : acceptCommand none s = raise .encError s := by
  simp [acceptCommand, h]

theorem acceptCommand_busy {s : State} (h : s.phase ≠ .idle) (B : Option Body) : acceptCommand B s = s := by
  unfold acceptCommand; split <;> simp_all

/-- Every operation is its encoder's body, offered. -/
theorem exec_eq (i : Instr) (s : State) : exec i s = .next (acceptCommand (encInstr i) s) := by
  cases i <;> rfl

/-- The edge of `IDLE` (R81), in one equation. -/
theorem idleEdge_eq (i : Inputs) {s : State} (h : s.phase = .idle) :
    idleEdge i s = .next (if i.cmdValid then acceptCommand (encBody i.cmd) s else s) := by
  unfold idleEdge encBody
  cases i.cmdValid
  · simp
  · cases decode i.cmd <;> simp [exec_eq, acceptCommand_invalid h]

/-! ### The tick counter -/

theorem countTick_idle (s : State) : countTick false s = s := rfl

theorem countTick_saturated {s : State} (h : elapsedMax s.params ≤ s.elapsed) (tick : Bool) : countTick tick s = s := by
  unfold countTick; simp [Nat.not_lt.mpr h]

/-! ### The byte the link takes -/

theorem byte?_eq_some {B : Body} {k : Nat} : (∃ b, B.byte? k = some b) ↔ k < 6 := by
  constructor
  · rintro ⟨b, hb⟩
    have := (List.getElem?_eq_some_iff.mp hb).1
    simpa [Body.bytes] using this
  · intro h
    exact ⟨B.bytes[k]'(by simpa [Body.bytes] using h), List.getElem?_eq_getElem _⟩

theorem takeTxByte_crc_body {s : State} {b : Byte} (h : s.body.byte? s.txCnt.toNat = some b) :
    (takeTxByte s).crc = crcStep s.crc b := by
  have h6 := byte?_eq_some.1 ⟨b, h⟩
  have h7 : s.txCnt ≠ 7 := fun h7 => by rw [h7] at h6; exact absurd h6 (by decide)
  simp only [takeTxByte, h, h7, if_false, crcFold_crc]

theorem takeTxByte_crc_low {s : State} (h : s.txCnt = 6) : (takeTxByte s).crc = s.crc := by
  simp [takeTxByte, h, Body.byte?, Body.bytes]

theorem takeTxByte_crc_high {s : State} (h : s.txCnt = 7) : (takeTxByte s).crc = crcInit := by
  simp [takeTxByte, h, Body.byte?, Body.bytes]

/-! ### The step function -/

/-- What an edge with inputs `i` can make of `s`, case by case (R80, R103). -/
inductive StepCase (i : Inputs) (s : State) : State → Prop
  | reset (hr : i.rst = true) : StepCase i s (resetEdge s)
  | idleHold (hr : i.rst = false) (hp : s.phase = .idle) (hv : i.cmdValid = false) : StepCase i s s
  | idleStart (B : Body) (hr : i.rst = false) (hp : s.phase = .idle) (hv : i.cmdValid = true)
      (hB : encBody i.cmd = some B) : StepCase i s (startCommand B s)
  | idleInvalid (hr : i.rst = false) (hp : s.phase = .idle) (hv : i.cmdValid = true) (hB : encBody i.cmd = none) :
      StepCase i s (raise .encError s)
  | sentError (hr : i.rst = false) (hp : s.phase = .sent) (he : i.linkErr = true) :
      StepCase i s (countTick i.tickI (raise .connError s))
  | sentTake (hr : i.rst = false) (hp : s.phase = .sent) (he : i.linkErr = false) (ht : i.txReady = true) :
      StepCase i s (countTick i.tickI (takeTxByte s))
  | sentWait (hr : i.rst = false) (hp : s.phase = .sent) (he : i.linkErr = false) (ht : i.txReady = false) :
      StepCase i s (countTick i.tickI s)
  | readTimeout (hr : i.rst = false) (hp : s.phase = .reading) (hx : s.expired = true) :
      StepCase i s (countTick i.tickI (raise .timeout s))
  | readError (hr : i.rst = false) (hp : s.phase = .reading) (hx : s.expired = false) (he : i.linkErr = true) :
      StepCase i s (countTick i.tickI (raise .connError s))
  | readOverflow (hr : i.rst = false) (hp : s.phase = .reading) (hx : s.expired = false) (he : i.linkErr = false)
      (hv : i.rxValid = true) (hf : s.bufferFull = true) : StepCase i s (countTick i.tickI (raise .overflow s))
  | readStore (hr : i.rst = false) (hp : s.phase = .reading) (hx : s.expired = false) (he : i.linkErr = false)
      (hv : i.rxValid = true) (hf : s.bufferFull = false) (hi : indexExists s.params s.len = true) :
      StepCase i s (countTick i.tickI (storeRxByte i.rxData s))
  | readWait (hr : i.rst = false) (hp : s.phase = .reading) (hx : s.expired = false) (he : i.linkErr = false)
      (hv : i.rxValid = false) : StepCase i s (countTick i.tickI s)
  | terminalHold (hr : i.rst = false) (hp : s.phase.terminal = true) (ha : i.resAck = false) : StepCase i s s
  | terminalAck (hr : i.rst = false) (hp : s.phase.terminal = true) (ha : i.resAck = true) :
      StepCase i s (returnToIdle s)

/-- The five terminal states do the same. -/
theorem phaseEdge_terminal (i : Inputs) {s : State} (h : s.phase.terminal = true) :
    phaseEdge i s = .next (terminalEdge i s) := by
  unfold phaseEdge
  cases hp : s.phase <;> simp_all [Phase.terminal, Phase.code]

theorem terminalEdge_cases (i : Inputs) {s : State} (hr : i.rst = false) (hp : s.phase.terminal = true) :
    StepCase i s (terminalEdge i s) := by
  unfold terminalEdge
  cases ha : i.resAck
  · simpa using StepCase.terminalHold hr hp ha
  · simpa using StepCase.terminalAck hr hp ha

theorem idleEdge_cases {i : Inputs} {s u : State} (hr : i.rst = false) (hp : s.phase = .idle)
    (h : idleEdge i s = .next u) : StepCase i s u := by
  rw [idleEdge_eq i hp] at h
  obtain rfl := Host.Outcome.next.inj h
  cases hv : i.cmdValid
  · simpa using StepCase.idleHold hr hp hv
  · cases hB : encBody i.cmd
    · simpa [acceptCommand_invalid hp] using StepCase.idleInvalid hr hp hv hB
    · simpa [acceptCommand_valid hp] using StepCase.idleStart _ hr hp hv hB

theorem sentEdge_cases {i : Inputs} {s : State} (hr : i.rst = false) (hp : s.phase = .sent) :
    StepCase i s (countTick i.tickI (sentEdge i s)) := by
  unfold sentEdge
  cases he : i.linkErr
  · cases ht : i.txReady
    · simpa using StepCase.sentWait hr hp he ht
    · simpa using StepCase.sentTake hr hp he ht
  · simpa using StepCase.sentError hr hp he

theorem readingEdge_cases {i : Inputs} {s u : State} (hr : i.rst = false) (hp : s.phase = .reading)
    (h : withTick i (readingEdge i s) = .next u) : StepCase i s u := by
  unfold readingEdge readRxByte at h
  cases hx : s.expired
  · cases he : i.linkErr
    · cases hv : i.rxValid
      · simp only [hx, he, hv, Bool.false_eq_true, if_false, withTick, Host.Outcome.next.injEq] at h
        exact h ▸ StepCase.readWait hr hp hx he hv
      · cases hf : s.bufferFull
        · cases hi : indexExists s.params s.len <;>
            simp only [hx, he, hv, hf, hi, Bool.false_eq_true, if_false, if_true, withTick, Host.Outcome.next.injEq,
              reduceCtorEq] at h
          exact h ▸ StepCase.readStore hr hp hx he hv hf hi
        · simp only [hx, he, hv, hf, Bool.false_eq_true, if_false, if_true, withTick, Host.Outcome.next.injEq] at h
          exact h ▸ StepCase.readOverflow hr hp hx he hv hf
    · simp only [hx, he, Bool.false_eq_true, if_false, if_true, withTick, Host.Outcome.next.injEq] at h
      exact h ▸ StepCase.readError hr hp hx he
  · simp only [hx, if_true, withTick, Host.Outcome.next.injEq] at h
    exact h ▸ StepCase.readTimeout hr hp hx

/-- All an edge can do, if it gives a next state. -/
theorem edge_cases {i : Inputs} {s u : State} (h : edge i s = .next u) : StepCase i s u := by
  unfold edge at h
  cases hr : i.rst
  · simp only [hr, Bool.false_eq_true, if_false] at h
    by_cases ht : s.phase.terminal = true
    · rw [phaseEdge_terminal i ht] at h
      obtain rfl := Host.Outcome.next.inj h
      exact terminalEdge_cases i hr ht
    · unfold phaseEdge at h
      cases hp : s.phase <;> simp only [hp] at h ht
      · exact idleEdge_cases hr hp h
      · simp only [withTick, Host.Outcome.next.injEq] at h
        exact h ▸ sentEdge_cases hr hp
      · exact readingEdge_cases hr hp h
      all_goals exact absurd rfl ht
  · simp only [hr, if_true, Host.Outcome.next.injEq] at h
    exact h ▸ StepCase.reset hr

/-- All a step can do, if it gives a next state: one of the cases of `StepCase`, and then the next inputs. -/
theorem step_cases {s t : State} (h : step s = .next t) : ∃ u, StepCase s.inp s u ∧ t = u.advance := by
  unfold step at h
  cases hu : edge s.inp s with
  | next u => exact ⟨u, edge_cases hu, by simpa [hu] using h.symm⟩
  | fault f => simp [hu] at h
  | refused r => simp [hu] at h

/-- Reading stops only where a byte is to be stored at an index that the buffer does not have. -/
theorem readingEdge_stops (i : Inputs) (s : State) :
    (∃ u, withTick i (readingEdge i s) = .next u) ∨
      (withTick i (readingEdge i s) = .fault (.bufferIndexOutOfRange s.len) ∧ s.bufferFull = false ∧
        indexExists s.params s.len = false) := by
  unfold readingEdge readRxByte
  split_ifs with h1 h2 h3 h4 h5 <;> simp_all [withTick]

/-- A step gives a next state, or stops in that one way. -/
theorem step_stops (s : State) :
    (∃ t, step s = .next t) ∨
      (step s = .fault (.bufferIndexOutOfRange s.len) ∧ s.phase = .reading ∧ s.bufferFull = false ∧
        indexExists s.params s.len = false) := by
  unfold step edge
  cases hr : s.inp.rst
  · by_cases ht : s.phase.terminal = true
    · simp [phaseEdge_terminal _ ht]
    · unfold phaseEdge
      cases hp : s.phase <;> simp only [hp] at ht
      · left; simp [idleEdge_eq _ hp]
      · left; simp [withTick]
      · rcases readingEdge_stops s.inp s with ⟨u, hu⟩ | ⟨hf, hb, hi⟩
        · left; simp [hu]
        · right; simp [hf, hb, hi]
      all_goals exact absurd rfl ht
  · simp

theorem step_fault {s : State} {f : Fault} (h : step s = .fault f) :
    f = .bufferIndexOutOfRange s.len ∧ s.phase = .reading ∧ s.bufferFull = false ∧
      indexExists s.params s.len = false := by
  rcases step_stops s with ⟨t, ht⟩ | ⟨hf, rest⟩
  · simp [ht] at h
  · exact ⟨by simpa [hf] using h.symm, rest⟩

theorem step_not_refused (s : State) (r : Refusal) : step s ≠ .refused r := by
  rcases step_stops s with ⟨t, ht⟩ | ⟨hf, -⟩ <;> simp [*]

end Sys2Proof.Machine
end

