-- ==== Sys2Proof/Laws/PerInstr.lean ====
section
/-! SUPPORT. The families of facts about the syntax of every command, one lemma per constructor. -/

namespace Sys2Proof.Laws

/-- The descriptor of a command carries the operation code of its row (R49, R50). -/
def EncodedOp.Statement (i : Instr) : Prop := opField (encode i) = i.op

theorem pack_op (op index action : Byte) (onMs : OnMs) : opField (packDescriptor op index action onMs) = op := by
  unfold opField packDescriptor
  ext j hj
  simp
  grind

theorem EncodedOp.toggle (index action : Byte) : EncodedOp.Statement (.toggle index action) := pack_op _ _ _ _
theorem EncodedOp.toggleAll (action : Byte) : EncodedOp.Statement (.toggleAll action) := pack_op _ _ _ _
theorem EncodedOp.pulse (index : Byte) (onMs : OnMs) : EncodedOp.Statement (.pulse index onMs) := pack_op _ _ _ _
theorem EncodedOp.getVer : EncodedOp.Statement .getVer := pack_op _ _ _ _

end Sys2Proof.Laws
end

