-- ==== Sys2Proof/Tests/Slice0.lean ====
section
/-! SUPPORT. The model's own tests, with expected values from `spec/95_test_vectors.md` and from the rules, and for every
statement with hypotheses a witness that meets them. -/

namespace Sys2Proof.Tests

open Sys2Proof Sys2Proof.Machine

/-! ### Helpers -/

/-- The next state, if there is one. -/
def after (s : State) : Option State :=
  match step s with
  | .next t => some t
  | _ => none

/-- The next state of a command's meaning, if there is one. -/
def afterExec (i : Instr) (s : State) : Option State :=
  match exec i s with
  | .next t => some t
  | _ => none

/-- A state `p` with the inputs `i` at the next edge, all else as after reset. -/
def at_ (p : Phase) (i : Inputs) : State := { State.reset with phase := p, stim := [i] }

/-- A command descriptor offered with a timeout. -/
def offer (d : Descriptor) (timeout : Nat) : Inputs :=
  { Inputs.quiet with cmdValid := true, cmd := d, cmdTimeout := timeout }

/-- A response byte offered. -/
def rx (b : Byte) : Inputs := { Inputs.quiet with rxValid := true, rxData := b }

/-- The link takes the offered byte. -/
def txReady : Inputs := { Inputs.quiet with txReady := true }

/-- One tick of the time base. -/
def tick : Inputs := { Inputs.quiet with tickI := true }

/-- The body of S3, `01 05 00 FF 55 00`. -/
def bodyS3 : Body := ⟨0x01, 0x05, 0x00, 0xFF, 0x55, 0x00⟩

/-! ### WellFormed refuses what R51 calls illegal -/

theorem smoke_toggle_action : (Instr.toggle 0x01 0x01).wf = false := by decide
theorem smoke_toggleAll_action : (Instr.toggleAll 0xFE).wf = false := by decide
theorem smoke_pulse_onMs : (Instr.pulse 0x03 1000000).wf = false := by decide
theorem smoke_legal : (Instr.toggle 0xFF 0x55).wf = true ∧ (Instr.pulse 0x00 999999).wf = true := by decide

/-! ### Descriptors written out from R49 and R50: op, index, action, on_ms -/

theorem decode_toggle :
    decode (0b00000000#8 ++ 0b11111111#8 ++ 0b01010101#8 ++ 0b000000000000000000000001#24)
      = .ok (.toggle 0xFF 0x55) := by decide
theorem decode_toggleAll :
    decode (0b00000001#8 ++ 0b00010010#8 ++ 0b00000000#8 ++ 0b101010111100110111101111#24)
      = .ok (.toggleAll 0x00) := by decide
theorem decode_pulse :
    decode (0b00000010#8 ++ 0b00000011#8 ++ 0b01110111#8 ++ 0b000000000000010111011100#24)
      = .ok (.pulse 0x03 1500) := by decide
theorem decode_getVer :
    decode (0b00000011#8 ++ 0b11111111#8 ++ 0b11111111#8 ++ 0b111111111111111111111111#24) = .ok .getVer := by decide
theorem decode_reserved :
    decode (0b00000100#8 ++ 0b00000000#8 ++ 0b00000000#8 ++ 0b000000000000000000000000#24)
      = .error (.reservedOp 0x04) := by decide
theorem decode_table_word : decodeTableWord 48 0x0203000001F4 = some (.pulse 0x03 500) := by decide

/-! ### Acceptance and frames, section 5 of the vectors -/

theorem toggle_accepted : (afterExec (.toggle 0xFF 0x55) (at_ .idle (offer 0x00FF55000000 100))).map
    (fun t => (t.phase, t.body, t.timeoutR)) = some (.sent, bodyS3, 100) := by decide +kernel
theorem toggle_frame : requestFrame 0x002000000000 = some [0x01, 0x05, 0x00, 0x20, 0x00, 0x00, 0xCC, 0x00] := by
  decide +kernel
theorem toggleAll_bad_action : (afterExec (.toggleAll 0x56) (at_ .idle (offer 0x01FF56000000 7))).map
    (fun t => (t.phase, t.timeoutR, t.crc)) = some (.encError, 0, 0xFFFF) := by decide +kernel
theorem toggleAll_frame : requestFrame 0x0112FFABCDEF = some [0x01, 0x05, 0x00, 0xFF, 0xFF, 0x00, 0xBC, 0x0A] := by
  decide +kernel
theorem pulse_frame : requestFrame 0x02030001E240 = some [0x01, 0x05, 0x02, 0x03, 0x12, 0x34, 0x31, 0x05] := by
  decide +kernel
theorem pulse_too_long : requestFrame 0x0203000F4240 = none := by decide +kernel
theorem getVer_frame : requestFrame 0x03FFFFFFFFFF = some [0x01, 0x03, 0x80, 0x00, 0x00, 0x01, 0xAD, 0xCA] := by
  decide +kernel
theorem getVer_fetched : (after (State.reset.withFetchWord 48 0x030000000000)).map (fun t => (t.phase, t.body.b2)) =
    some (.sent, 0x80) := by decide +kernel

/-! ### Single edges, section 6 of the vectors -/

theorem v3_reserved_op : (after { at_ .idle { offer 0x040000000000 5 with tickI := true } with elapsed := 7 }).map
    (fun t => (t.phase, t.elapsed)) = some (.encError, 7) := by decide +kernel
theorem v5_first_byte : (after { at_ .sent txReady with body := bodyS3 }).map (fun t => (t.txCnt, t.crc)) =
    some (1, 0x807E) := by decide +kernel
theorem v8_crc_held : (after { at_ .sent txReady with txCnt := 6, crc := 0xAAC2 }).map (fun t => (t.txCnt, t.crc)) =
    some (7, 0xAAC2) := by decide +kernel
theorem v9_write_done : (after { at_ .sent txReady with txCnt := 7, crc := 0xAAC2 }).map
    (fun t => (t.phase, t.txCnt, t.crc)) = some (.reading, 8, 0xFFFF) := by decide +kernel
theorem v10_link_error_first : (after { at_ .sent { txReady with linkErr := true } with txCnt := 7 }).map
    (fun t => (t.phase, t.txCnt)) = some (.connError, 7) := by decide +kernel
theorem v11_no_timeout_in_sent : (after { at_ .sent txReady with txCnt := 2, elapsed := 9, timeoutR := 3 }).map
    (fun t => (t.phase, t.txCnt)) = some (.sent, 3) := by decide +kernel
theorem v15_completes : (after { at_ .reading (rx 0xFF) with len := 1, crc := 0x00FF, buf := [(0, 0xFF)] }).map
    (fun t => (t.phase, t.len, t.buf, t.crc)) = some (.complete, 2, [(0, 0xFF), (1, 0xFF)], 0) := by decide +kernel
theorem v17_goes_on : (after { at_ .reading (rx 0xAB) with len := 7, crc := 0x00AA }).map
    (fun t => (t.phase, t.len, t.crc)) = some (.reading, 8, 0xC0C1) := by decide +kernel
theorem v18_not_yet_expired : (after { at_ .reading { rx 0x01 with tickI := true } with elapsed := 5, timeoutR := 5 }).map
    (fun t => (t.phase, t.len, t.elapsed)) = some (.reading, 1, 6) := by decide +kernel
theorem v19_deadline_first : (after { at_ .reading (rx 0xAA) with elapsed := 6, timeoutR := 5, len := 7, crc := 0x00AA }).map
    (fun t => (t.phase, t.len, t.crc)) = some (.timeout, 7, 0x00AA) := by decide +kernel
theorem v21_link_error_before_byte : (after { at_ .reading { rx 0xAA with linkErr := true } with len := 7 }).map
    (fun t => (t.phase, t.len)) = some (.connError, 7) := by decide +kernel
theorem v22_overflow : (after { at_ .reading (rx 0x12) with len := 256, crc := 0x1234 }).map
    (fun t => (t.phase, t.len, t.crc)) = some (.overflow, 256, 0x1234) := by decide +kernel
theorem v23_last_slot : (after { at_ .reading (rx 0xFF) with len := 255, crc := 0x00FF }).map
    (fun t => (t.phase, t.len)) = some (.complete, 256) := by decide +kernel
theorem v24_saturated : (after { at_ .reading tick with elapsed := 0x1FFFF, timeoutR := 0xFFFF }).map
    (fun t => (t.phase, t.elapsed)) = some (.timeout, 0x1FFFF) := by decide +kernel
theorem v25_all_ones : (after { at_ .reading tick with elapsed := 0xFFFF, timeoutR := 0xFFFF }).map
    (fun t => (t.phase, t.elapsed)) = some (.reading, 0x10000) := by decide +kernel
theorem v27_acknowledged : (after { at_ .complete { Inputs.quiet with resAck := true } with len := 8, crc := 0, txCnt := 8 }).map
    (fun t => (t.phase, t.len, t.crc, t.txCnt)) = some (.idle, 0, 0xFFFF, 8) := by decide +kernel
theorem v28_not_accepted_at_ack : (after (at_ .encError { offer 0x0001FF000000 7 with resAck := true })).map
    (fun t => t.phase) = some .idle := by decide +kernel
theorem v29_reset : (after { at_ .sent { txReady with rst := true } with txCnt := 3, timeoutR := 9, body := bodyS3 }).map
    (fun t => (t.phase, t.txCnt, t.timeoutR, t.body)) = some (.idle, 0, 0, bodyS3) := by decide +kernel
theorem v30_buffer_read : ({ at_ .complete { Inputs.quiet with rdAddr := 1 } with len := 2, buf := [(0, 0x12), (1, 0x34)] }
    : State).outputs.rdData = 0x34 := by decide +kernel

/-! ### Witnesses -/

/-- A state at the start of `READING`, with the inputs `l` to come. -/
def readingEmpty (timeout elapsed : Nat) (l : List Inputs) : State :=
  { State.reset with phase := .reading, txCnt := 8, timeoutR := timeout, elapsed := elapsed, stim := l }

theorem readingEmpty_inv (timeout elapsed : Nat) (l : List Inputs) (ht : timeout < 65536) (he : elapsed ≤ 131071) :
    Inv (readingEmpty timeout elapsed l) where
  params := ⟨by change 1 ≤ 16; decide, fun cap h => by
    have : 256 = cap := Option.some.inj h
    omega⟩
  widths := ⟨fun _ _ => Nat.zero_le _, he, ht, by change 8 ≤ 8; decide⟩
  buffer := ⟨rfl, fun _ _ => rfl, fun _ h => absurd h (Nat.not_lt_zero _)⟩
  phase := ⟨rfl, rfl, by change ¬ (0xFFFF : Crc) = 0; decide, fun _ _ h => absurd h (Nat.not_lt_zero _)⟩

/-- For the clause of `CrcCornerCases` on a sequence of CRC 0. -/
theorem witness_CrcCornerCases : crcCompute [0xFF, 0xFF] = 0 := by decide +kernel

theorem witness_DecodeSelectsRowByMask :
    (0x00FFFFFFFFFF : Descriptor) &&& 0xFF0000000000 = 0x000000000000 ∧
    (0x010000000000 : Descriptor) &&& 0xFF0000000000 = 0x010000000000 ∧
    (0x02FFFFFFFFFF : Descriptor) &&& 0xFF0000000000 = 0x020000000000 ∧
    (0x03FFFFFFFFFF : Descriptor) &&& 0xFF0000000000 = 0x030000000000 ∧
    4 ≤ ((0x040000000000 : Descriptor).extractLsb' 40 8).toNat ∧
    4 ≤ ((0xFF0000000000 : Descriptor).extractLsb' 40 8).toNat := by decide

theorem witness_PulseTickIsDecimalReadAsHex : 9999 ≤ 9999 ∧ bcd16 9999 = 0x9999 := by decide

/-- The clauses of R51 at the values next to each: the last legal and the first illegal. -/
theorem witness_IllegalDescriptorsExactly :
    let s := at_ .idle (offer 0x0203000F4240 3)
    s.phase = .idle ∧ s.inp.rst = false ∧ s.inp.cmdValid = true ∧ s.inp.cmd = 0x0203000F4240 ∧
    encBody 0x0203000F4240 = none ∧ encBody 0x0203000F423F ≠ none ∧ encBody 0x040000000000 = none ∧
    encBody 0x030000000000 ≠ none ∧ encBody 0x0001FE000000 = none ∧ encBody 0x0101FF000000 ≠ none := by decide +kernel

theorem witness_RequestFramesAreWellFormed :
    requestFrame 0x0001FF000000 = some [0x01, 0x05, 0x00, 0x01, 0xFF, 0x00, 0xDD, 0xFA] := by decide +kernel

/-- For `ToggleStartsItsCommand` and `ToggleAllStartsItsCommand`: a legal and an illegal action. -/
theorem witness_toggle_actions :
    State.reset.phase = .idle ∧ ((0x55 : Byte) = 0xFF ∨ (0x55 : Byte) = 0x00 ∨ (0x55 : Byte) = 0x55) ∧
    (0x54 : Byte) ≠ 0xFF ∧ (0x54 : Byte) ≠ 0x00 ∧ (0x54 : Byte) ≠ 0x55 := by decide

theorem witness_PulseStartsItsCommand :
    State.reset.phase = .idle ∧ (999999 : OnMs).toNat ≤ 999999 ∧ 999999 < (1000000 : OnMs).toNat := by decide

theorem witness_GetVerStartsItsCommand : State.reset.phase = .idle := by decide

theorem witness_CommandsOutsideIdleHaveNoEffect : (at_ .reading Inputs.quiet).phase ≠ .idle := by decide

theorem witness_StepRunsTheDecodedCommand :
    let s := at_ .idle (offer 0x00FF55000000 100)
    s.phase = .idle ∧ s.inp.rst = false ∧ s.inp.cmdValid = true ∧ decode s.inp.cmd = .ok (.toggle 0xFF 0x55) ∧
    decodeTableWord 48 0x00FF55000000 = some (.toggle 0xFF 0x55) := by decide

theorem witness_ResetEdge : (at_ .sent { Inputs.quiet with rst := true }).inp.rst = true := by decide

theorem witness_IdleEdge :
    (at_ .idle Inputs.quiet).phase = .idle ∧ (at_ .idle Inputs.quiet).inp.rst = false ∧
    (at_ .idle Inputs.quiet).inp.cmdValid = false ∧
    (at_ .idle (offer 0x040000000000 0)).inp.cmdValid = true ∧
    encBody (at_ .idle (offer 0x040000000000 0)).inp.cmd = none ∧
    encBody (at_ .idle (offer 0x030000000000 0)).inp.cmd = some ⟨0x01, 0x03, 0x80, 0x00, 0x00, 0x01⟩ := by decide

/-- The clauses of `SENT`: a link error, a stall, and a byte taken at `tx_cnt` 0, 5, 6 and 7. -/
theorem witness_SentEdge :
    let s := { at_ .sent txReady with body := bodyS3 }
    s.phase = .sent ∧ s.inp.rst = false ∧ s.inp.linkErr = false ∧ s.inp.txReady = true ∧
    s.txCnt.toNat ≤ 5 ∧ s.body.bytes[s.txCnt.toNat]? = some 0x01 ∧
    (5 : BitVec 4).toNat ≤ 5 ∧ s.body.bytes[(5 : BitVec 4).toNat]? = some 0x00 ∧
    ({ s with txCnt := 6 } : State).txCnt = 6 ∧ ({ s with txCnt := 7 } : State).txCnt = 7 ∧
    (at_ .sent { Inputs.quiet with linkErr := true }).inp.linkErr = true ∧
    (at_ .sent Inputs.quiet).inp.txReady = false ∧ (at_ .sent Inputs.quiet).inp.linkErr = false := by decide

theorem witness_ElapsedCounter : (at_ .reading tick).inp.rst = false ∧ after (at_ .reading tick) ≠ none := by
  decide +kernel

/-- The clauses of `READING` without a byte: one tick past the timeout, and none past it with and without an error. -/
theorem witness_ReadingEdgeWithoutByte :
    (readingEmpty 5 6 [Inputs.quiet]).phase = .reading ∧ (readingEmpty 5 6 [Inputs.quiet]).inp.rst = false ∧
    (readingEmpty 5 6 [Inputs.quiet]).timeoutR < (readingEmpty 5 6 [Inputs.quiet]).elapsed ∧
    (readingEmpty 5 5 [Inputs.quiet]).elapsed ≤ (readingEmpty 5 5 [Inputs.quiet]).timeoutR ∧
    (readingEmpty 5 5 [{ Inputs.quiet with linkErr := true }]).inp.linkErr = true ∧
    (readingEmpty 5 5 [Inputs.quiet]).inp.linkErr = false ∧ (readingEmpty 5 5 [Inputs.quiet]).inp.rxValid = false := by
  decide

/-- A byte offered with the buffer full, and with one slot left. -/
theorem witness_ReadingEdgeWithByte :
    let s := { at_ .reading (rx 0xFF) with len := 255 }
    s.phase = .reading ∧ s.inp.rst = false ∧ s.elapsed ≤ s.timeoutR ∧ s.inp.linkErr = false ∧ s.inp.rxValid = true ∧
    (∀ cap, s.params.respCap = some cap → s.len < cap) ∧
    ({ s with len := 256 } : State).params.respCap = some ({ s with len := 256 } : State).len :=
  ⟨rfl, rfl, Nat.le_refl _, rfl, rfl, fun cap h => by
    have : 256 = cap := Option.some.inj h
    subst this
    exact Nat.lt_succ_self 255, rfl⟩

/-- A link error in `SENT`, and in `READING` in the last cycle before the timeout has passed. -/
theorem witness_ConnectionErrorEndsTheCommand :
    let s := at_ .sent { Inputs.quiet with linkErr := true }
    let r := readingEmpty 5 5 [{ Inputs.quiet with linkErr := true }]
    s.inp.rst = false ∧ s.inp.linkErr = true ∧ s.phase = .sent ∧ (after s).map (·.phase) = some .connError ∧
    r.inp.rst = false ∧ r.inp.linkErr = true ∧ r.phase = .reading ∧ r.elapsed ≤ r.timeoutR ∧
    (after r).map (·.phase) = some .connError := by decide +kernel

theorem witness_TerminalEdge :
    (at_ .timeout Inputs.quiet).phase ≠ .idle ∧ (at_ .timeout Inputs.quiet).phase ≠ .sent ∧
    (at_ .timeout Inputs.quiet).phase ≠ .reading ∧ (at_ .timeout Inputs.quiet).inp.rst = false ∧
    (at_ .timeout Inputs.quiet).inp.resAck = false ∧ (at_ .timeout Inputs.quiet).phase = .timeout ∧
    (at_ .complete Inputs.quiet).phase = .complete ∧ (at_ .connError Inputs.quiet).phase = .connError ∧
    (at_ .encError Inputs.quiet).phase = .encError ∧ (at_ .overflow Inputs.quiet).phase = .overflow ∧
    (at_ .complete { Inputs.quiet with resAck := true }).inp.resAck = true := by decide

/-- A step with a next state: for `TransitionTable`, `CrcRegisterOperations`, `BufferFrame`, `RegisterFrame` and
`ConnectionOwnership`. -/
theorem witness_step_gives_next :
    (∃ t, step (at_ .idle (offer 0x030000000000 2)) = .next t ∧ t.phase = .sent) ∧
    (∃ t, step (at_ .sent txReady) = .next t ∧ t.phase = .sent) ∧
    (∃ t, step (at_ .reading (rx 0x01)) = .next t ∧ Memory.read t.buf 0 = some 0x01) ∧
    (∃ t, step (at_ .complete { Inputs.quiet with resAck := true }) = .next t ∧ t.phase = .idle) ∧
    (∃ t, step (at_ .sent { Inputs.quiet with rst := true }) = .next t ∧ t.phase = .idle) :=
  ⟨⟨_, rfl, rfl⟩, ⟨_, rfl, rfl⟩, ⟨_, rfl, rfl⟩, ⟨_, rfl, rfl⟩, ⟨_, rfl, rfl⟩⟩

/-- The clauses of `OutputPorts`: outside `SENT`, at `tx_cnt` 0, 6 and 7 in it, and a buffer read below `len`. -/
theorem witness_OutputPorts :
    (at_ .idle Inputs.quiet).phase ≠ .sent ∧ (at_ .sent Inputs.quiet).phase = .sent ∧
    (at_ .sent Inputs.quiet).txCnt.toNat ≤ 5 ∧ (at_ .sent Inputs.quiet).body.bytes[0]? = some 0x00 ∧
    ({ at_ .sent Inputs.quiet with txCnt := 6 } : State).txCnt = 6 ∧
    7 ≤ ({ at_ .sent Inputs.quiet with txCnt := 7 } : State).txCnt.toNat ∧
    (let s : State := { at_ .complete { Inputs.quiet with rdAddr := 1 } with len := 2, buf := [(0, 0x12), (1, 0x34)] }
     s.params.respCap = some 256 ∧ s.len ≤ 256 ∧ s.inp.rdAddr < s.len ∧
     Memory.read s.buf s.inp.rdAddr = some 0x34) := by decide +kernel

/-- For each group of states two samples that agree on what it reads and differ elsewhere. -/
theorem witness_IgnoredInputsHaveNoEffect :
    let i := { Inputs.quiet with rdAddr := 7 }
    let j := { Inputs.quiet with cmd := 0x030000000000, rdAddr := 9 }
    i ≠ j ∧ i.rst = j.rst ∧ i.cmdValid = j.cmdValid ∧ (i.cmdValid = true → i.cmd = j.cmd ∧ i.cmdTimeout = j.cmdTimeout) ∧
    i.linkErr = j.linkErr ∧ i.txReady = j.txReady ∧ i.tickI = j.tickI ∧ i.rxValid = j.rxValid ∧
    (i.rxValid = true → i.rxData = j.rxData) ∧ i.resAck = j.resAck ∧ ({ i with rst := true } : Inputs).rst = true := by
  decide

/-- The widths R6 gives for capacities of one less than a power of two, a power of two, and the least one. -/
theorem witness_LenWidthHoldsEveryLength :
    lenW ⟨16, some 255⟩ = some 8 ∧ lenW ⟨16, some 256⟩ = some 9 ∧ lenW ⟨16, some 1⟩ = some 1 := by decide +kernel

/-- A state in `COMPLETE` whose response is the buffer `m`, with read address 1. -/
def completeWith (m : Memory) : State :=
  { at_ .complete { Inputs.quiet with rdAddr := 1 } with len := m.length, buf := m }

/-- A sequence of three bytes, and buffers of four and of two bytes in `COMPLETE`, all written. -/
theorem witness_ResponseFieldView :
    let s := completeWith [(0, 0x01), (1, 0x02), (2, 0x03), (3, 0x04)]
    let r := completeWith [(0, 0xFF), (1, 0xFF)]
    [(0x01 : Byte), 0x02, 0x03].length < 4 ∧
    s.phase = .complete ∧ 4 ≤ s.len ∧ (∀ a, a < s.len → Memory.read s.buf a ≠ none) ∧
    s.responseView = some ⟨0x01, 0x02, [], 0x03, 0x04⟩ ∧
    r.phase = .complete ∧ r.len < 4 ∧ (∀ a, a < r.len → Memory.read r.buf a ≠ none) ∧
    (at_ .overflow Inputs.quiet).phase ≠ .complete := by decide +kernel

/-- An address of the wires, and one number that LEN_W = 9 wires carry as the same address. -/
theorem witness_BufferReadSeesTheAddressWires :
    let s := { at_ .complete { Inputs.quiet with rdAddr := 513 } with len := 2, buf := [(0, 0x12), (1, 0x34)] }
    lenW s.params = some 9 ∧ s.inp.rdAddr % 2 ^ 9 < s.len ∧ Memory.read s.buf (s.inp.rdAddr % 2 ^ 9) = some 0x34 := by
  decide +kernel

theorem witness_EveryStepKeepsInvariant :
    ∃ t, Inv (readingEmpty 5 0 [rx 0x01]) ∧ step (readingEmpty 5 0 [rx 0x01]) = .next t :=
  ⟨_, readingEmpty_inv 5 0 _ (by decide) (by decide), rfl⟩

/-- For `GoodStatesHaveANextState` and `GoodStatesRunSafely`. -/
theorem witness_good_state : Inv (readingEmpty 5 0 [rx 0x01]) := readingEmpty_inv 5 0 _ (by decide) (by decide)

theorem witness_InfiniteBufferNeverOverflows :
    ∃ s t : State, s.params.respCap = none ∧ s.phase ≠ .overflow ∧ step s = .next t :=
  ⟨{ at_ .reading (rx 0x01) with params := ⟨16, none⟩, len := 300 }, _, rfl, by decide, rfl⟩

/-- A `GET_VER` accepted by the next edge and then a link that takes every byte. -/
def getVerAndReadyLink : State :=
  { State.reset with stim := offer 0x030000000000 9 :: (List.replicate 8 txReady ++ [rx 0x01]) }

/-- The state after its acceptance. -/
def getVerAccepted : State :=
  { State.reset with phase := .sent, body := encGetVer, timeoutR := 9, cycle := 1,
                     stim := List.replicate 8 txReady ++ [rx 0x01] }

theorem witness_TxStreamIsTheRequestFrame :
    getVerAndReadyLink.phase = .idle ∧ getVerAndReadyLink.inp.rst = false ∧ getVerAndReadyLink.inp.cmdValid = true ∧
    requestFrame getVerAndReadyLink.inp.cmd = some [0x01, 0x03, 0x80, 0x00, 0x00, 0x01, 0xAD, 0xCA] ∧
    step getVerAndReadyLink = .next getVerAccepted ∧ During 8 getVerAccepted (fun u => u.phase = .sent) ∧
    ∃ u, run 8 getVerAccepted = .next u ∧ u.phase = .reading := by
  refine ⟨rfl, rfl, rfl, by decide +kernel, rfl, fun m hm u hu => ?_, _, rfl, rfl⟩
  interval_cases m <;> exact Host.Outcome.next.inj hu ▸ rfl

theorem witness_EightReadyCyclesSendTheFrame :
    getVerAndReadyLink.phase = .idle ∧
    getVerAndReadyLink.stim = offer 0x030000000000 9 :: (List.replicate 8 txReady ++ [rx 0x01]) ∧
    (offer 0x030000000000 9).rst = false ∧ (offer 0x030000000000 9).cmdValid = true ∧
    requestFrame (offer 0x030000000000 9).cmd = some [0x01, 0x03, 0x80, 0x00, 0x00, 0x01, 0xAD, 0xCA] ∧
    (List.replicate 8 txReady).length = 8 ∧
    ∀ i ∈ List.replicate 8 txReady, i.rst = false ∧ i.linkErr = false ∧ i.txReady = true := by
  refine ⟨rfl, rfl, rfl, rfl, by decide +kernel, rfl, by decide⟩

theorem witness_CompleteAtFirstZeroCrc :
    let s := readingEmpty 5 0 [rx 0xFF, rx 0xFF]
    Inv s ∧ s.phase = .reading ∧ s.len = 0 ∧ During 2 s (fun u => u.phase = .reading) ∧
    ∃ t, run 2 s = .next t ∧ t.phase = .complete := by
  refine ⟨readingEmpty_inv 5 0 _ (by decide) (by decide), rfl, rfl, fun m hm u hu => ?_, _, rfl, by decide +kernel⟩
  interval_cases m
  · exact Host.Outcome.next.inj hu ▸ rfl
  · exact Host.Outcome.next.inj hu ▸ (by decide +kernel)

/-- The last byte taken as the first tick comes, with a timeout of 0: the deadline is over one edge later. For
`ElapsedCounter` too. -/
theorem witness_TimeoutNeverEarly :
    let s := { at_ .sent { txReady with tickI := true } with txCnt := 7, stim := [{ txReady with tickI := true }, Inputs.quiet] }
    s.phase = .sent ∧ s.elapsed = 0 ∧ During 2 s (fun u => u.phase.active = true ∧ u.inp.rst = false) ∧
    ∃ t, run 2 s = .next t ∧ t.phase = .timeout := by
  refine ⟨rfl, rfl, fun m hm u hu => ?_, _, rfl, rfl⟩
  interval_cases m <;> exact Host.Outcome.next.inj hu ▸ ⟨rfl, rfl⟩

theorem witness_TimeoutNeverLate :
    let s := readingEmpty 0 0 [tick, rx 0x01]
    Inv s ∧ s.phase = .reading ∧ During 2 s (fun u => u.inp.rst = false) ∧ s.timeoutR < s.elapsed + ticksOver 1 s := by
  refine ⟨readingEmpty_inv 0 0 _ (by decide) (by decide), rfl, fun m hm u hu => ?_, by decide +kernel⟩
  interval_cases m <;> exact Host.Outcome.next.inj hu ▸ rfl

/-- Two idle states left with different bodies, buffers and counters by earlier commands. -/
theorem witness_NothingSurvivesACommand :
    let s := at_ .idle (offer 0x030000000000 2)
    let s' := { s with body := bodyS3, buf := [(0, 0x12)], txCnt := 8, elapsed := 7, timeoutR := 3, crc := 0x1234 }
    s ≠ s' ∧ s.phase = .idle ∧ s'.phase = .idle ∧ s.params = s'.params ∧ s.stim = s'.stim ∧ s.cycle = s'.cycle ∧
    s.inp.rst = false ∧ s.inp.cmdValid = true ∧ encBody s.inp.cmd ≠ none ∧
    ∃ t t', step s = .next t ∧ step s' = .next t' :=
  ⟨by decide, rfl, rfl, rfl, rfl, rfl, rfl, rfl, by decide, _, _, rfl, rfl⟩

end Sys2Proof.Tests
end

section
/-! PROOFS. The output ports and what they show of the state (R18, R22). First the values of the ports; then, for the
noninterference of R22, that neither an edge nor a port depends on the buffer bytes at or above `len`. -/

namespace Sys2Proof.Machine

/-! ### The halves of the CRC register -/

theorem lo_eq_extractLsb' (v : BitVec 16) : lo v = v.extractLsb' 0 8 := by
  ext k
  simp [lo]

theorem hi_eq_extractLsb' (v : BitVec 16) : hi v = v.extractLsb' 8 8 := by
  ext k
  simp [hi]

/-! ### `tx_data` (R18) -/

theorem txData_of_not_sent {s : State} (hp : s.phase ≠ .sent) : s.txData = 0x00 := by
  simp [State.txData, hp]

theorem txData_of_body {s : State} {b : Byte} (hp : s.phase = .sent) (hb : s.body.byte? s.txCnt.toNat = some b) :
    s.txData = b := by
  simp [State.txData, hp, hb]

/-- There is no body byte at a count of 6 and above (R13). -/
theorem byte?_eq_none {B : Body} {k : Nat} (hk : 6 ≤ k) : B.byte? k = none :=
  List.getElem?_eq_none hk

theorem txData_of_crc_low {s : State} (hp : s.phase = .sent) (h6 : s.txCnt = 6) : s.txData = lo s.crc := by
  simp [State.txData, hp, h6, byte?_eq_none]

theorem txData_of_crc_high {s : State} (hp : s.phase = .sent) (h7 : 7 ≤ s.txCnt.toNat) : s.txData = hi s.crc := by
  have hnone : s.body.byte? s.txCnt.toNat = none := byte?_eq_none (by omega)
  have h6 : s.txCnt ≠ 6 := fun h6 => by simp [h6] at h7
  simp only [State.txData, hp, hnone, h6, if_true, if_false]

/-! ### The ports of the handshakes and of the result (R18, R19) -/

theorem rxReady_eq (s : State) :
    s.outputs.rxReady = decide (s.phase = .reading ∧ s.elapsed ≤ s.timeoutR ∧ s.inp.linkErr = false) := by
  rw [Bool.eq_iff_iff]
  simp [State.outputs, State.expired, and_assoc]

/-- The terminal states by name (R9). -/
theorem terminal_iff (p : Phase) :
    p.terminal = true ↔ p = .complete ∨ p = .timeout ∨ p = .connError ∨ p = .encError ∨ p = .overflow := by
  cases p <;> decide

/-- A written byte below `len` is what the read port shows at its address (R18, R31). -/
theorem rdData_of_written {s : State} {b : Byte} (hl : ∀ cap, s.params.respCap = some cap → s.len ≤ cap)
    (ha : s.inp.rdAddr < s.len) (hb : Memory.read s.buf s.inp.rdAddr = some b) : s.outputs.rdData = b := by
  simp [State.outputs, sampledRdAddr_of_lt hl ha, State.rdDataAt, ha, hb]

end Sys2Proof.Machine

namespace Sys2Proof.Proofs

open Sys2Proof.Machine

/-- Settles O31, port by port. -/
theorem outputPorts : Obligations.OutputPorts := by
  intro s
  refine ⟨?cmdReady, ?txValid, txData_of_not_sent, ?txBody, ?txLow, ?txHigh, ?txLast, rxReady_eq s, ?linkReq,
    terminal_iff s.phase, ?resStatus, rfl, fun hl b ha hb => rdData_of_written hl ha hb, rfl, ?crcZero⟩
  case txBody => exact fun hp b _ hb => txData_of_body hp hb
  case txLow => exact fun hp h6 => (txData_of_crc_low hp h6).trans (lo_eq_extractLsb' _)
  case txHigh => exact fun hp h7 => (txData_of_crc_high hp h7).trans (hi_eq_extractLsb' _)
  case resStatus => simp only [State.outputs]; cases s.phase <;> rfl
  case cmdReady | txValid | txLast | linkReq | crcZero =>
    rw [Bool.eq_iff_iff]; simp [State.outputs, Phase.active, State.crcZero]

end Sys2Proof.Proofs

namespace Sys2Proof.Machine

/-! ### The edge in each state, and the step function from its cases (R80) -/

theorem edge_reset {i : Inputs} (s : State) (hr : i.rst = true) : edge i s = .next (resetEdge s) := by
  simp [edge, hr]

theorem edge_idle {i : Inputs} {s : State} (hr : i.rst = false) (hp : s.phase = .idle) :
    edge i s = .next (if i.cmdValid then acceptCommand (encBody i.cmd) s else s) := by
  simp [edge, hr, phaseEdge, hp, idleEdge_eq i hp]

theorem edge_sent {i : Inputs} {s : State} (hr : i.rst = false) (hp : s.phase = .sent) :
    edge i s = .next (countTick i.tickI (sentEdge i s)) := by
  simp [edge, hr, phaseEdge, hp, withTick]

theorem edge_reading {i : Inputs} {s : State} (hr : i.rst = false) (hp : s.phase = .reading) :
    edge i s = withTick i (readingEdge i s) := by
  simp [edge, hr, phaseEdge, hp]

theorem edge_terminal {i : Inputs} {s : State} (hr : i.rst = false) (hp : s.phase.terminal = true) :
    edge i s = .next (if i.resAck then returnToIdle s else s) := by
  simp [edge, hr, phaseEdge_terminal i hp, terminalEdge]

/-- The converse of `edge_cases`: each case is what the edge does. -/
theorem edge_of_stepCase {i : Inputs} {s u : State} (h : StepCase i s u) : edge i s = .next u := by
  cases h with
  | reset hr => exact edge_reset s hr
  | idleHold hr hp hv => simp [edge_idle hr hp, hv]
  | idleStart B hr hp hv hB => simp [edge_idle hr hp, hv, hB, acceptCommand_valid hp]
  | idleInvalid hr hp hv hB => simp [edge_idle hr hp, hv, hB, acceptCommand_invalid hp]
  | sentError hr hp he => simp [edge_sent hr hp, sentEdge, he]
  | sentTake hr hp he ht => simp [edge_sent hr hp, sentEdge, he, ht]
  | sentWait hr hp he ht => simp [edge_sent hr hp, sentEdge, he, ht]
  | readTimeout hr hp hx => simp [edge_reading hr hp, withTick, readingEdge, hx]
  | readError hr hp hx he => simp [edge_reading hr hp, withTick, readingEdge, hx, he]
  | readOverflow hr hp hx he hv hf => simp [edge_reading hr hp, withTick, readingEdge, hx, he, hv, readRxByte, hf]
  | readStore hr hp hx he hv hf hi => simp [edge_reading hr hp, withTick, readingEdge, hx, he, hv, readRxByte, hf, hi]
  | readWait hr hp hx he hv => simp [edge_reading hr hp, withTick, readingEdge, hx, he, hv]
  | terminalHold hr hp ha => simp [edge_terminal hr hp, ha]
  | terminalAck hr hp ha => simp [edge_terminal hr hp, ha]

/-- The converse of `step_cases`. -/
theorem step_of_stepCase {s u : State} (h : StepCase s.inp s u) : step s = .next u.advance := by
  simp [step, edge_of_stepCase h]

/-! ### Two states that differ in the buffer alone -/

/-- `s` with the buffer `m` in place of its own. -/
def State.withBuf (m : Memory) (s : State) : State := { s with buf := m }

/-- Two buffers hold the same bytes at the indices below `n`. -/
def Memory.AgreeBelow (n : Nat) (m m' : Memory) : Prop := ∀ a, a < n → Memory.read m a = Memory.read m' a

theorem agreeBelow_zero (m m' : Memory) : Memory.AgreeBelow 0 m m' := fun _ ha => absurd ha (Nat.not_lt_zero _)

theorem agreeBelow_symm {n : Nat} {m m' : Memory} (h : Memory.AgreeBelow n m m') : Memory.AgreeBelow n m' m :=
  fun a ha => (h a ha).symm

/-- The same byte stored at the first index not yet in use extends the agreement by that index. -/
theorem agreeBelow_write {n : Nat} {m m' : Memory} (b : Byte) (h : Memory.AgreeBelow n m m') :
    Memory.AgreeBelow (n + 1) (Memory.write m n b) (Memory.write m' n b) := by
  intro a ha
  rw [read_write, read_write]
  split_ifs with han
  · rfl
  · exact h a (by omega)

@[simp] theorem withBuf_inp (m : Memory) (s : State) : (s.withBuf m).inp = s.inp := rfl
@[simp] theorem withBuf_len (m : Memory) (s : State) : (s.withBuf m).len = s.len := rfl
@[simp] theorem withBuf_cycle (m : Memory) (s : State) : (s.withBuf m).cycle = s.cycle := rfl
@[simp] theorem withBuf_buf (m : Memory) (s : State) : (s.withBuf m).buf = m := rfl
@[simp] theorem withBuf_advance (m : Memory) (s : State) : (s.withBuf m).advance = s.advance.withBuf m := rfl
@[simp] theorem withBuf_withBuf (m m' : Memory) (s : State) : (s.withBuf m).withBuf m' = s.withBuf m' := rfl
@[simp] theorem withBuf_self (s : State) : s.withBuf s.buf = s := rfl

theorem countTick_withBuf (tick : Bool) (m : Memory) (s : State) :
    countTick tick (s.withBuf m) = (countTick tick s).withBuf m := by
  cases tick
  · rfl
  · by_cases hlt : s.elapsed < elapsedMax s.params <;> simp [countTick, State.withBuf, hlt]

theorem takeTxByte_withBuf (m : Memory) (s : State) : takeTxByte (s.withBuf m) = (takeTxByte s).withBuf m := by
  cases hb : s.body.byte? s.txCnt.toNat <;> by_cases h7 : s.txCnt = 7 <;>
    simp only [takeTxByte, State.withBuf, hb, h7, if_true, if_false] <;> rfl

/-! ### Nothing depends on the buffer at or above `len` (R22) -/

/-- An edge does the same to a state with another buffer, and buffers that agree below `len` before it agree below the
new `len` after it: the only store is at index `len`, and `len` is else kept or set to 0. -/
theorem stepCase_withBuf {i : Inputs} {s u : State} {m : Memory} (h : StepCase i s u)
    (hm : Memory.AgreeBelow s.len s.buf m) :
    ∃ m', StepCase i (s.withBuf m) (u.withBuf m') ∧ Memory.AgreeBelow u.len u.buf m' := by
  cases h with
  | reset hr => exact ⟨m, .reset hr, agreeBelow_zero _ _⟩
  | idleHold hr hp hv => exact ⟨m, .idleHold hr hp hv, hm⟩
  | idleStart B hr hp hv hB => exact ⟨m, .idleStart B hr hp hv hB, agreeBelow_zero _ _⟩
  | idleInvalid hr hp hv hB => exact ⟨m, .idleInvalid hr hp hv hB, hm⟩
  | sentError hr hp he => exact ⟨m, countTick_withBuf _ m _ ▸ .sentError hr hp he, by simpa using hm⟩
  | sentTake hr hp he ht =>
    exact ⟨m, countTick_withBuf _ m _ ▸ takeTxByte_withBuf m s ▸ .sentTake hr hp he ht, by simpa using hm⟩
  | sentWait hr hp he ht => exact ⟨m, countTick_withBuf _ m _ ▸ .sentWait hr hp he ht, by simpa using hm⟩
  | readTimeout hr hp hx => exact ⟨m, countTick_withBuf _ m _ ▸ .readTimeout hr hp hx, by simpa using hm⟩
  | readError hr hp hx he => exact ⟨m, countTick_withBuf _ m _ ▸ .readError hr hp hx he, by simpa using hm⟩
  | readOverflow hr hp hx he hv hf =>
    exact ⟨m, countTick_withBuf _ m _ ▸ .readOverflow hr hp hx he hv hf, by simpa using hm⟩
  | readStore hr hp hx he hv hf hi =>
    exact ⟨Memory.write m s.len i.rxData, countTick_withBuf _ _ _ ▸ .readStore hr hp hx he hv hf hi,
      by simpa using agreeBelow_write i.rxData hm⟩
  | readWait hr hp hx he hv => exact ⟨m, countTick_withBuf _ m _ ▸ .readWait hr hp hx he hv, by simpa using hm⟩
  | terminalHold hr hp ha => exact ⟨m, .terminalHold hr hp ha, hm⟩
  | terminalAck hr hp ha => exact ⟨m, .terminalAck hr hp ha, agreeBelow_zero _ _⟩

theorem step_withBuf {s t : State} {m : Memory} (h : step s = .next t) (hm : Memory.AgreeBelow s.len s.buf m) :
    ∃ m', step (s.withBuf m) = .next (t.withBuf m') ∧ Memory.AgreeBelow t.len t.buf m' := by
  obtain ⟨u, hu, rfl⟩ := step_cases h
  obtain ⟨m', hu', hm'⟩ := stepCase_withBuf hu hm
  exact ⟨m', step_of_stepCase (s := s.withBuf m) hu', hm'⟩

/-- No output shows a buffer byte at or above `len` (R18, R31). -/
theorem outputs_withBuf {s : State} {m : Memory} (hm : Memory.AgreeBelow s.len s.buf m) :
    (s.withBuf m).outputs = s.outputs := by
  have hrd (a : Nat) : (s.withBuf m).rdDataAt a = s.rdDataAt a := by
    simp only [State.rdDataAt, withBuf_len, withBuf_buf, withBuf_cycle]
    by_cases ha : a < s.len
    · simp only [ha, if_true, hm a ha]
    · simp only [ha, if_false]
  simp only [State.outputs, hrd]
  rfl

/-- Two runs from states that differ only in the buffer at or above `len` show the same outputs in every cycle; where
one stops, so does the other. -/
theorem outputsOver_withBuf (n : Nat) {s : State} {m : Memory} (hm : Memory.AgreeBelow s.len s.buf m) :
    outputsOver n (s.withBuf m) = outputsOver n s := by
  induction n generalizing s m with
  | zero => rfl
  | succ n ih =>
    simp only [outputsOver, outputs_withBuf hm, List.cons.injEq, true_and]
    rcases step_stops s with ⟨t, ht⟩ | ⟨hf, -⟩
    · obtain ⟨m', ht', hm'⟩ := step_withBuf ht hm
      simp only [ht, ht', ih hm']
    · rcases step_stops (s.withBuf m) with ⟨t', ht'⟩ | ⟨hf', -⟩
      · obtain ⟨m', ht, -⟩ := step_withBuf (m := s.buf) ht' (agreeBelow_symm hm)
        simp [hf] at ht
      · simp only [hf, hf']

/-! ### The acceptance of a valid command -/

theorem step_accept {s : State} {B : Body} (hp : s.phase = .idle) (hr : s.inp.rst = false)
    (hv : s.inp.cmdValid = true) (hB : encBody s.inp.cmd = some B) : step s = .next (startCommand B s).advance :=
  step_of_stepCase (.idleStart B hr hp hv hB)

/-- Acceptance writes every element of R10 but the buffer, from the command and the timeout alone (R81). -/
theorem startCommand_eq_withBuf {s s' : State} (B : Body) (hparams : s.params = s'.params) (hstim : s.stim = s'.stim)
    (hcycle : s.cycle = s'.cycle) : startCommand B s' = (startCommand B s).withBuf s'.buf := by
  simp [startCommand, State.withBuf, State.sampledTimeout, inp_congr hstim hcycle, hparams, hstim, hcycle]

end Sys2Proof.Machine

namespace Sys2Proof.Proofs

open Sys2Proof.Machine

/-- Settles O48: acceptance leaves a difference in the buffer alone, and with `len` 0 no cycle shows it. -/
theorem nothingSurvivesACommand : Obligations.NothingSurvivesACommand := by
  intro s s' t t' hp hp' hparams hstim hcycle hr hv hvalid ht ht'
  obtain ⟨B, hB⟩ := Option.ne_none_iff_exists'.mp hvalid
  have hinp : s.inp = s'.inp := inp_congr hstim hcycle
  rw [step_accept hp hr hv hB] at ht
  rw [step_accept hp' (hinp ▸ hr) (hinp ▸ hv) (hinp ▸ hB), startCommand_eq_withBuf B hparams hstim hcycle] at ht'
  obtain rfl := Host.Outcome.next.inj ht
  obtain rfl := Host.Outcome.next.inj ht'
  exact ⟨rfl, fun n => (outputsOver_withBuf n (s := (startCommand B s).advance) (agreeBelow_zero _ _)).symm⟩

end Sys2Proof.Proofs
end

section
/-! PROOFS. The command descriptor and its legality (R49, R50, R51): the four fields of a packed descriptor, the row a
descriptor selects and the operands it reads there, and which operands the encoder refuses. -/

namespace Sys2Proof

/-! ### The fields of a packed descriptor (R49) -/

@[simp] theorem opField_pack (op index action : Byte) (onMs : OnMs) :
    opField (packDescriptor op index action onMs) = op := Laws.pack_op op index action onMs

/-- A field is read back from its place above the fields `lower`, whatever `upper` holds. -/
theorem extractLsb'_middle {u w l : Nat} (upper : BitVec u) (x : BitVec w) (lower : BitVec l) :
    (upper ++ x ++ lower).extractLsb' l w = x := by
  ext k hk
  simp [BitVec.getLsbD_append, hk]

@[simp] theorem indexField_pack (op index action : Byte) (onMs : OnMs) :
    indexField (packDescriptor op index action onMs) = index := by
  rw [packDescriptor, BitVec.append_assoc]
  exact extractLsb'_middle op index (action ++ onMs)

@[simp] theorem actionField_pack (op index action : Byte) (onMs : OnMs) :
    actionField (packDescriptor op index action onMs) = action := extractLsb'_middle (op ++ index) action onMs

@[simp] theorem onMsField_pack (op index action : Byte) (onMs : OnMs) :
    onMsField (packDescriptor op index action onMs) = onMs :=
  BitVec.extractLsb'_append_eq_right

/-! ### The row a descriptor selects (R50) -/

/-- The mask keeps the operation code. -/
theorem opField_and_rowMask (d : Descriptor) : opField (d &&& rowMask) = opField d := by
  have hones : rowMask.extractLsb' 40 8 = BitVec.allOnes 8 := by decide
  rw [opField, BitVec.extractLsb'_and, hones, BitVec.and_allOnes, opField]

theorem opField_rowMatch (i : Instr) : opField i.rowMatch = i.op := by
  cases i <;> simp [opField, Instr.rowMatch, Instr.op]

theorem opField_of_selectsRow {d : Descriptor} (i : Instr) (h : d &&& rowMask = i.rowMatch) : opField d = i.op := by
  rw [← opField_and_rowMask, h, opField_rowMatch]

theorem decode_of_op_toggle {d : Descriptor} (h : opField d = 0x00) :
    decode d = .ok (.toggle (indexField d) (actionField d)) := by simp [decode, h]

theorem decode_of_op_toggleAll {d : Descriptor} (h : opField d = 0x01) :
    decode d = .ok (.toggleAll (actionField d)) := by simp [decode, h]

theorem decode_of_op_pulse {d : Descriptor} (h : opField d = 0x02) :
    decode d = .ok (.pulse (indexField d) (onMsField d)) := by simp [decode, h]

theorem decode_of_op_getVer {d : Descriptor} (h : opField d = 0x03) : decode d = .ok .getVer := by simp [decode, h]

theorem decode_of_op_reserved {d : Descriptor} (h : 4 ≤ (opField d).toNat) :
    decode d = .error (.reservedOp (opField d)) := by
  have hne (c : Byte) (hc : c.toNat < 4) : opField d ≠ c := by rintro rfl; omega
  simp [decode, hne]

/-- The codes of R50: one for each row, and the reserved ones. -/
theorem op_cases (op : Byte) : op = 0x00 ∨ op = 0x01 ∨ op = 0x02 ∨ op = 0x03 ∨ 4 ≤ op.toNat := by bv_omega

/-! ### The commands a packed descriptor decodes to: the other fields have no effect (R49) -/

theorem decode_pack_toggle (index action : Byte) (onMs : OnMs) :
    decode (packDescriptor 0x00 index action onMs) = .ok (.toggle index action) := by
  simp [decode_of_op_toggle]

theorem decode_pack_toggleAll (index action : Byte) (onMs : OnMs) :
    decode (packDescriptor 0x01 index action onMs) = .ok (.toggleAll action) := by
  simp [decode_of_op_toggleAll]

theorem decode_pack_pulse (index action : Byte) (onMs : OnMs) :
    decode (packDescriptor 0x02 index action onMs) = .ok (.pulse index onMs) := by
  simp [decode_of_op_pulse]

theorem decode_pack_getVer (index action : Byte) (onMs : OnMs) :
    decode (packDescriptor 0x03 index action onMs) = .ok .getVer := by
  simp [decode_of_op_getVer]

end Sys2Proof

namespace Sys2Proof.Machine

/-! ### What the encoder refuses (R51, R76) -/

theorem actionLegal_eq_false {action : Byte} :
    actionLegal action = false ↔ action ≠ 0xFF ∧ action ≠ 0x00 ∧ action ≠ 0x55 := by
  simp [actionLegal, actionOn, actionOff, actionFlip, and_assoc]

theorem onMsLegal_eq_false {onMs : OnMs} : onMsLegal onMs = false ↔ 999999 < onMs.toNat := by
  rw [onMsLegal, decide_eq_false_iff_not, not_le, onMsMax]

/-- The encoder refuses a command exactly when it is ill formed. -/
theorem encInstr_eq_none_iff (i : Instr) : encInstr i = none ↔ i.wf = false := by
  cases i <;> simp [encInstr, encToggle, encPulse, Instr.wf]

theorem encBody_of_decode {d : Descriptor} {i : Instr} (h : decode d = .ok i) : encBody d = encInstr i := by
  simp [encBody, h]

theorem encBody_of_reserved {d : Descriptor} (h : 4 ≤ (opField d).toNat) : encBody d = none := by
  simp [encBody, decode_of_op_reserved h]

/-- A descriptor of a row is illegal exactly when the command it decodes to is ill formed. -/
theorem encBody_eq_none_iff_of_decode {d : Descriptor} {i : Instr} (h : decode d = .ok i) :
    encBody d = none ↔ i.wf = false := by
  rw [encBody_of_decode h, encInstr_eq_none_iff]

/-- The three cases of R51, row by row. -/
theorem encBody_eq_none_iff (d : Descriptor) :
    encBody d = none ↔
      4 ≤ (opField d).toNat ∨
      ((opField d).toNat ≤ 1 ∧ actionField d ≠ 0xFF ∧ actionField d ≠ 0x00 ∧ actionField d ≠ 0x55) ∨
      (opField d = 0x02 ∧ 999999 < (onMsField d).toNat) := by
  rcases op_cases (opField d) with h | h | h | h | h
  · rw [encBody_eq_none_iff_of_decode (decode_of_op_toggle h), Instr.wf, actionLegal_eq_false]
    simp [h]
  · rw [encBody_eq_none_iff_of_decode (decode_of_op_toggleAll h), Instr.wf, actionLegal_eq_false]
    simp [h]
  · rw [encBody_eq_none_iff_of_decode (decode_of_op_pulse h), Instr.wf, onMsLegal_eq_false]
    simp [h]
  · rw [encBody_eq_none_iff_of_decode (decode_of_op_getVer h), Instr.wf]
    simp [h]
  · simp [encBody_of_reserved h, h]

/-- The acceptance of an invalid descriptor (R51, R81). -/
theorem step_refuse {s : State} (hp : s.phase = .idle) (hr : s.inp.rst = false) (hv : s.inp.cmdValid = true)
    (hB : encBody s.inp.cmd = none) : step s = .next (raise .encError s).advance :=
  step_of_stepCase (.idleInvalid hr hp hv hB)

end Sys2Proof.Machine

namespace Sys2Proof.Proofs

open Sys2Proof.Machine

/-- Settles O7: the mask keeps the operation code alone, by which the decoder chooses the row. -/
theorem decodeSelectsRowByMask : Obligations.DecodeSelectsRowByMask := fun _ =>
  ⟨fun h => decode_of_op_toggle (opField_of_selectsRow (.toggle 0 0) h),
    fun h => decode_of_op_toggleAll (opField_of_selectsRow (.toggleAll 0) h),
    fun h => decode_of_op_pulse (opField_of_selectsRow (.pulse 0 0) h),
    fun h => decode_of_op_getVer (opField_of_selectsRow .getVer h), decode_of_op_reserved⟩

/-- Settles O8: a packed descriptor decodes to a command in which an ignored field does not occur. -/
theorem descriptorFieldsAndIgnoredFields : Obligations.DescriptorFieldsAndIgnoredFields := by
  intro op index index' action action' onMs onMs'
  refine ⟨opField_pack .., indexField_pack .., actionField_pack .., onMsField_pack .., ?toggle, ?toggleAll, ?pulse,
    ?getVer⟩
  case toggle => rw [decode_pack_toggle, decode_pack_toggle]
  case toggleAll => rw [decode_pack_toggleAll, decode_pack_toggleAll]
  case pulse => rw [decode_pack_pulse, decode_pack_pulse]
  case getVer => rw [decode_pack_getVer, decode_pack_getVer]

/-- Settles O11: `encBody` is none by the three cases of R51, and the refusing edge of `IDLE` is `raise` alone. -/
theorem illegalDescriptorsExactly : Obligations.IllegalDescriptorsExactly := fun d =>
  ⟨encBody_eq_none_iff d, fun _ hp hr hv hcmd hB => step_refuse hp hr hv (hcmd ▸ hB)⟩

end Sys2Proof.Proofs
end

section
/-! PROOFS. The CRC generator (`spec/40_crc.md`). The rounds of R61 are linear over exclusive or and lose nothing, and
on a register whose low byte is 0 the eight of them are a shift by eight. From these come the forms of R63 and the one
fact behind R66 and R68: after a step the high byte is 0 exactly when the byte folded was the register's low byte. -/

namespace Sys2Proof.Machine

/-! ### The rounds are linear and lose nothing (R61) -/

/-- Each bit takes its left neighbour, and the bit of the polynomial is added if bit 0 was 1. -/
theorem crcRound_getLsbD (c : Crc) (k : Nat) :
    (crcRound c).getLsbD k = (c.getLsbD (k + 1) ^^ (c.getLsbD 0 && crcPoly.getLsbD k)) := by
  cases h : c.getLsbD 0 <;> simp only [crcRound, h] <;> simp [Nat.add_comm]

theorem crcRound_xor (a b : Crc) : crcRound (a ^^^ b) = crcRound a ^^^ crcRound b := by
  refine BitVec.eq_of_getLsbD_eq fun k _ => ?_
  simp only [crcRound_getLsbD, BitVec.getLsbD_xor, Bool.and_xor_distrib_right, Bool.xor_assoc, Bool.xor_left_comm]

theorem crcRounds_xor (n : Nat) (a b : Crc) : crcRounds n (a ^^^ b) = crcRounds n a ^^^ crcRounds n b := by
  induction n generalizing a b with
  | zero => rfl
  | succ n ih => rw [crcRounds, crcRound_xor, ih, crcRounds, crcRounds]

/-- The bit shifted out is not lost: the polynomial puts it into bit 15. -/
theorem crcRound_eq_zero_iff {c : Crc} : crcRound c = 0 ↔ c = 0 := by
  refine ⟨fun h => ?_, by rintro rfl; rfl⟩
  have hbits (k : Nat) : (crcRound c).getLsbD k = false := h ▸ BitVec.getLsbD_zero
  have h0 : c.getLsbD 0 = false := by
    have h15 := hbits 15
    rwa [crcRound_getLsbD, BitVec.getLsbD_of_ge c 16 (Nat.le_refl 16), Bool.false_xor,
      show crcPoly.getLsbD 15 = true from rfl, Bool.and_true] at h15
  refine BitVec.eq_of_getLsbD_eq fun k _ => ?_
  cases k with
  | zero => exact h0
  | succ k =>
    have hk := hbits k
    rw [crcRound_getLsbD, h0, Bool.false_and, Bool.xor_false] at hk
    exact hk.trans BitVec.getLsbD_zero.symm

theorem crcRounds_eq_zero_iff {n : Nat} {c : Crc} : crcRounds n c = 0 ↔ c = 0 := by
  induction n generalizing c with
  | zero => rfl
  | succ n ih => rw [crcRounds, ih, crcRound_eq_zero_iff]

theorem crcRounds_inj {n : Nat} {a b : Crc} : crcRounds n a = crcRounds n b ↔ a = b :=
  calc crcRounds n a = crcRounds n b
    _ ↔ crcRounds n (a ^^^ b) = 0 := by rw [crcRounds_xor]; exact BitVec.xor_eq_zero_iff.symm
    _ ↔ a ^^^ b = 0 := crcRounds_eq_zero_iff
    _ ↔ a = b := BitVec.xor_eq_zero_iff

/-- Where no 1 is shifted out, the polynomial is never added. -/
theorem crcRounds_of_low_bits_false {n : Nat} {c : Crc} (h : ∀ k, k < n → c.getLsbD k = false) :
    crcRounds n c = c >>> n := by
  induction n generalizing c with
  | zero => rfl
  | succ n ih =>
    have hround : crcRound c = c >>> 1 := by rw [crcRound, h 0 n.succ_pos]; rfl
    have hshift (k : Nat) (hk : k < n) : (c >>> 1).getLsbD k = false := by
      rw [BitVec.getLsbD_ushiftRight]
      exact h (1 + k) (by omega)
    rw [crcRounds, hround, ih hshift, ← BitVec.shiftRight_add, Nat.add_comm]

theorem crcRounds_high_byte (d : Byte) : crcRounds 8 (d.setWidth 16 <<< 8) = d.setWidth 16 := by
  rw [crcRounds_of_low_bits_false fun k hk => by simp [hk]]
  bv_omega

/-! ### The step on the halves of the register -/

/-- A register value is its high byte over its low byte. -/
theorem eq_hi_xor_lo (c : Crc) : c = (hi c).setWidth 16 <<< 8 ^^^ (lo c).setWidth 16 := by
  refine BitVec.eq_of_getLsbD_eq fun k hk => ?_
  by_cases h8 : k < 8
  · simp [lo, hi, h8, hk]
  · have hlt : k - 8 < 8 := by omega
    have hadd : 8 + (k - 8) = k := by omega
    simp [lo, hi, h8, hk, hlt, hadd]

/-- The two halves of a register value determine it. -/
theorem eq_halves_iff {c : Crc} {b d : Byte} : c = d.setWidth 16 <<< 8 ^^^ b.setWidth 16 ↔ b = lo c ∧ d = hi c := by
  constructor
  · rintro rfl
    constructor <;> refine BitVec.eq_of_getLsbD_eq fun k hk => ?_
    · simp [lo, hk]
    · have hlt : 8 + k < 16 := by omega
      simp [hi, hk, hlt]
  · rintro ⟨rfl, rfl⟩
    exact eq_hi_xor_lo c

/-- The high byte after a step is 0 exactly when the byte folded was the low byte of the register (`x` of R63 is 0
then); the low byte after it is the old high byte. -/
theorem crcStep_eq_byte_iff {c : Crc} {b d : Byte} : crcStep c b = d.setWidth 16 ↔ b = lo c ∧ d = hi c :=
  calc crcStep c b = d.setWidth 16
    _ ↔ crcRounds 8 (c ^^^ b.setWidth 16) = crcRounds 8 (d.setWidth 16 <<< 8) := by
      rw [crcStep_xor, crcRounds_high_byte]
    _ ↔ c ^^^ b.setWidth 16 = d.setWidth 16 <<< 8 := crcRounds_inj
    _ ↔ c = d.setWidth 16 <<< 8 ^^^ b.setWidth 16 := by
      rw [← BitVec.xor_left_inj (b.setWidth 16), BitVec.xor_assoc, BitVec.xor_self, BitVec.xor_zero]
    _ ↔ b = lo c ∧ d = hi c := eq_halves_iff

/-- Folding the low byte of the register (R66). -/
theorem crcStep_lo (c : Crc) : crcStep c (lo c) = (hi c).setWidth 16 := crcStep_eq_byte_iff.mpr ⟨rfl, rfl⟩

theorem crcStep_eq_zero_iff {c : Crc} {b : Byte} : crcStep c b = 0 ↔ c = b.setWidth 16 :=
  calc crcStep c b = 0
    _ ↔ c ^^^ b.setWidth 16 = 0 := by rw [crcStep_xor, crcRounds_eq_zero_iff]
    _ ↔ c = b.setWidth 16 := BitVec.xor_eq_zero_iff

/-- Two bytes bring the register to 0 exactly when they are its own halves, low byte first (R66). -/
theorem crcStep_crcStep_eq_zero_iff {c : Crc} {b d : Byte} : crcStep (crcStep c b) d = 0 ↔ b = lo c ∧ d = hi c := by
  rw [crcStep_eq_zero_iff, crcStep_eq_byte_iff]

/-- No one byte brings `CRC_INIT` to 0: its high byte is not 0 (R68). -/
theorem crcStep_crcInit_ne_zero (b : Byte) : crcStep crcInit b ≠ 0 := fun h =>
  absurd (crcStep_eq_byte_iff (d := 0).mp h).2 (by decide)

/-! ### The table and the closed form (R63) -/

/-- An entry of the table is the eight rounds of its index. -/
theorem crcTable_eq_rounds (x : Byte) : crcTable x = crcRounds 8 (x.setWidth 16) := by
  rw [crcTable, crcStep_xor]
  exact congrArg (crcRounds 8) BitVec.zero_xor

theorem crcStep_eq_table (c : Crc) (b : Byte) : crcStep c b = (c >>> 8) ^^^ crcTable (lo c ^^^ b) := by
  have hhalves : c ^^^ b.setWidth 16 = (hi c).setWidth 16 <<< 8 ^^^ (lo c ^^^ b).setWidth 16 := by
    rw [BitVec.setWidth_xor, ← BitVec.xor_assoc, ← eq_hi_xor_lo]
  have hhi : (hi c).setWidth 16 = c >>> 8 := by rw [hi]; bv_omega
  rw [crcStep_xor, hhalves, crcRounds_xor, crcRounds_high_byte, hhi, crcTable_eq_rounds]

theorem crcTable_xor (x y : Byte) : crcTable (x ^^^ y) = crcTable x ^^^ crcTable y := by
  simp only [crcTable_eq_rounds, BitVec.setWidth_xor, crcRounds_xor]

theorem parity_xor (x y : Byte) : parity (x ^^^ y) = (parity x ^^ parity y) := by
  have : Std.Commutative Bool.xor := ⟨Bool.xor_comm⟩
  simp only [parity, BitVec.getLsbD_xor]
  ac_rfl

/-- The closed form with its constant as a register value. -/
theorem crcTableClosed_eq (x : Byte) :
    crcTableClosed x = (if parity x then 0xC001 else 0 : Crc) ^^^ (x.setWidth 16 <<< 6) ^^^ (x.setWidth 16 <<< 7) := by
  cases h : parity x <;> simp only [crcTableClosed, h] <;> rfl

theorem crcTableClosed_xor (x y : Byte) : crcTableClosed (x ^^^ y) = crcTableClosed x ^^^ crcTableClosed y := by
  have hconst (p q : Bool) : (if p ^^ q then 0xC001 else 0 : Crc) =
      (if p then 0xC001 else 0) ^^^ (if q then 0xC001 else 0) := by revert p q; decide
  simp only [crcTableClosed_eq, parity_xor, hconst, BitVec.setWidth_xor, BitVec.shiftLeft_xor_distrib]
  ac_rfl

/-- Two maps linear over exclusive or that agree on every byte with one bit set are the same map. -/
theorem eq_of_xor_of_twoPow {f g : Byte → Crc} (hf : ∀ x y, f (x ^^^ y) = f x ^^^ f y)
    (hg : ∀ x y, g (x ^^^ y) = g x ^^^ g y) (h : ∀ i < 8, f (BitVec.twoPow 8 i) = g (BitVec.twoPow 8 i)) (x : Byte) :
    f x = g x := by
  have hlow (n : Nat) (hn : n ≤ 8) : f ((x.setWidth n).setWidth 8) = g ((x.setWidth n).setWidth 8) := by
    induction n with
    | zero =>
      have hzero : (x.setWidth 0).setWidth 8 = (0 ^^^ 0 : Byte) := by rw [BitVec.eq_nil (x.setWidth 0)]; rfl
      rw [hzero, hf, hg, BitVec.xor_self, BitVec.xor_self]
    | succ n ih =>
      specialize ih (Nat.le_of_succ_le hn)
      cases hbit : x.getLsbD n with
      | false => rwa [BitVec.setWidth_setWidth_succ_eq_setWidth_setWidth_of_getLsbD_false hbit]
      | true =>
        have hset : (x.setWidth (n + 1)).setWidth 8 = (x.setWidth n).setWidth 8 ^^^ BitVec.twoPow 8 n := by
          rw [BitVec.setWidth_setWidth_succ_eq_setWidth_setWidth_or_twoPow_of_getLsbD_true hbit]
          ext k hk
          by_cases hkn : k = n <;> simp [hkn]
        rw [hset, hf, hg, ih, h n hn]
  simpa using hlow 8 (Nat.le_refl 8)

theorem crcTable_eq_closed (x : Byte) : crcTable x = crcTableClosed x :=
  eq_of_xor_of_twoPow crcTable_xor crcTableClosed_xor (by decide) x

/-- The only entry of the table whose high byte is 0 is entry 0, and it is 0 (R68). -/
theorem crcTable_eq_byte_iff {x d : Byte} : crcTable x = d.setWidth 16 ↔ x = 0 ∧ d = 0 := crcStep_eq_byte_iff

/-! ### The CRC of a sequence (R66, R68) -/

/-- Two bytes behind a sequence make its CRC 0 exactly when they are its checksum. -/
theorem crcCompute_append_two_eq_zero_iff {bs : List Byte} {b d : Byte} :
    crcCompute (bs ++ [b, d]) = 0 ↔ [b, d] = checksumBytes bs := by
  rw [crcCompute_append, List.foldl_cons, List.foldl_cons, List.foldl_nil, crcStep_crcStep_eq_zero_iff, checksumBytes]
  simp

theorem crcCompute_append_checksumBytes (bs : List Byte) : crcCompute (bs ++ checksumBytes bs) = 0 :=
  crcCompute_append_two_eq_zero_iff.mpr rfl

/-- The checksum of a sequence whose CRC is 0. -/
theorem checksumBytes_of_crcCompute_eq_zero {bs : List Byte} (h : crcCompute bs = 0) :
    checksumBytes bs = [0x00, 0x00] := by
  rw [checksumBytes, h]; rfl

/-- A sequence of CRC 0 has two bytes at least, and the last two are the checksum of the others. -/
theorem crcCompute_eq_zero_iff {bs : List Byte} :
    crcCompute bs = 0 ↔ ∃ before, bs = before ++ checksumBytes before := by
  refine ⟨fun h => ?_, by rintro ⟨before, rfl⟩; exact crcCompute_append_checksumBytes before⟩
  rcases List.eq_nil_or_concat' bs with rfl | ⟨init, d, rfl⟩
  · exact absurd h (by decide)
  rcases List.eq_nil_or_concat' init with rfl | ⟨before, b, rfl⟩
  · exact absurd h (crcStep_crcInit_ne_zero d)
  · rw [List.append_assoc] at h ⊢
    exact ⟨before, congrArg (before ++ ·) (crcCompute_append_two_eq_zero_iff.mp h)⟩

end Sys2Proof.Machine

namespace Sys2Proof.Proofs

open Sys2Proof.Machine

/-- Settles O2: two steps reach 0 exactly with the two halves of the register, and neither none nor one reaches it. -/
theorem crcSelfVerification : Obligations.CrcSelfVerification := by
  intro bytes
  simp only [← lo_eq_extractLsb', ← hi_eq_extractLsb']
  exact ⟨crcCompute_append_checksumBytes bytes, crcCompute_eq_zero_iff⟩

/-- Settles O3: the high byte of the register is only shifted, and the table and its closed form are both linear. -/
theorem crcTableAndClosedForms : Obligations.CrcTableAndClosedForms :=
  ⟨fun c b => lo_eq_extractLsb' c ▸ crcStep_eq_table c b, crcTable_eq_closed⟩

/-- Settles O5, row by row. -/
theorem crcCornerCases : Obligations.CrcCornerCases := by
  refine ⟨crcCompute_nil, fun x => ⟨crcStep_crcInit_ne_zero x, crcStep_eq_table crcInit x, ?noEntry⟩,
    fun x y => ?twoBytes, fun bytes => ?lowByte,
    fun bytes h => ⟨checksumBytes_of_crcCompute_eq_zero h, ?oneZero, ?twoZeros⟩, ?checkValue⟩
  case noEntry => exact fun h => absurd (crcTable_eq_byte_iff (d := 0xFF).mp h).2 (by decide)
  case twoBytes => exact crcStep_crcStep_eq_zero_iff (c := crcInit)
  case lowByte => rw [crcCompute_append_one, crcStep_lo]
  case oneZero => rw [crcCompute_append_one, h]; rfl
  case twoZeros => exact crcCompute_append_two_eq_zero_iff.mpr (checksumBytes_of_crcCompute_eq_zero h).symm
  case checkValue => simp [crcCompute, crcInit, crcStep_eq_table, crcTable_eq_closed, crcTableClosed_eq, lo, parity]

end Sys2Proof.Proofs
end

section
/-! PROOFS. The frame encoder (`spec/41_frame_encoder.md`): the pulse tick value and its two bytes, the body and the
request frame of a command, and what the edge that accepts a command in `IDLE` makes of the encoder's answer. -/

namespace Sys2Proof.Machine

/-! ### The halves of a 16-bit value (R7) -/

theorem lo_toNat (v : BitVec 16) : (lo v).toNat = v.toNat % 256 := by simp [lo]

theorem hi_toNat (v : BitVec 16) : (hi v).toNat = v.toNat / 256 := by rw [hi]; bv_omega

/-! ### The pulse tick value (R75) -/

/-- Four decimal digits, one in each half byte, fit into 16 bits. -/
theorem bcd16_toNat (t : Nat) :
    (bcd16 t).toNat = t / 1000 % 10 * 4096 + t / 100 % 10 * 256 + t / 10 % 10 * 16 + t % 10 := by
  rw [bcd16, BitVec.toNat_ofNat]
  exact Nat.mod_eq_of_lt (by omega)

/-- The last decimal digit, at 0 too, where there is none. -/
theorem ofDigits_digits_ten (b t : Nat) :
    Nat.ofDigits b (Nat.digits 10 t) = t % 10 + b * Nat.ofDigits b (Nat.digits 10 (t / 10)) := by
  rcases Nat.eq_zero_or_pos t with rfl | ht
  · simp
  · rw [Nat.digits_def' Nat.one_lt_ofNat ht, Nat.ofDigits_cons]

/-- The decimal string read as a base-16 numeral (R75): four digits are taken off, and none is left. -/
theorem bcd16_toNat_eq_ofDigits {t : Nat} (ht : t ≤ 9999) : (bcd16 t).toNat = Nat.ofDigits 16 (Nat.digits 10 t) := by
  have hnone : t / 10 / 10 / 10 / 10 = 0 := by omega
  rw [bcd16_toNat, ofDigits_digits_ten, ofDigits_digits_ten, ofDigits_digits_ten, ofDigits_digits_ten, hnone,
    Nat.digits_zero, Nat.ofDigits_nil]
  omega

/-- `tickHigh`: the thousands and the hundreds (R75). -/
theorem hi_bcd16 {t : Nat} (ht : t ≤ 9999) : hi (bcd16 t) = BitVec.ofNat 8 (16 * (t / 1000) + t / 100 % 10) := by
  refine BitVec.eq_of_toNat_eq ?_
  have hthousands : t / 1000 % 10 = t / 1000 := Nat.mod_eq_of_lt (by omega)
  have hlow : t / 10 % 10 * 16 + t % 10 < 256 := by omega
  have hhigh : 16 * (t / 1000) + t / 100 % 10 < 256 := by omega
  rw [hi_toNat, bcd16_toNat, BitVec.toNat_ofNat, hthousands, Nat.mod_eq_of_lt hhigh]
  omega

/-- `tickLow`: the tens and the ones (R75). -/
theorem lo_bcd16 (t : Nat) : lo (bcd16 t) = BitVec.ofNat 8 (16 * (t / 10 % 10) + t % 10) := by
  refine BitVec.eq_of_toNat_eq ?_
  rw [lo_toNat, bcd16_toNat, BitVec.toNat_ofNat]
  omega

/-! ### The CRC without its rounds (R63) -/

/-- The step by the closed form of the table, on which the rounds of R61 need not be run (R63). -/
def crcStepClosed (c : Crc) (b : Byte) : Crc := (c >>> 8) ^^^ crcTableClosed (lo c ^^^ b)

theorem crcStep_eq_closed : crcStep = crcStepClosed := by
  funext c b
  rw [crcStep_eq_table, crcTable_eq_closed, crcStepClosed]

/-! ### The body of a command (R71 to R74) -/

theorem actionLegal_eq_true {action : Byte} :
    actionLegal action = true ↔ action = 0xFF ∨ action = 0x00 ∨ action = 0x55 := by
  simp [actionLegal, actionOn, actionOff, actionFlip, or_assoc]

theorem onMsLegal_eq_true {onMs : OnMs} : onMsLegal onMs = true ↔ onMs.toNat ≤ 999999 := by
  rw [onMsLegal, decide_eq_true_iff, onMsMax]

theorem encInstr_toggle {action : Byte} (index : Byte) (ha : action = 0xFF ∨ action = 0x00 ∨ action = 0x55) :
    encInstr (.toggle index action) = some ⟨0x01, 0x05, 0x00, index, action, 0x00⟩ :=
  if_pos (actionLegal_eq_true.mpr ha)

theorem encInstr_toggle_eq_none {index action : Byte} :
    encInstr (.toggle index action) = none ↔ action ≠ 0xFF ∧ action ≠ 0x00 ∧ action ≠ 0x55 := by
  rw [encInstr_eq_none_iff, Instr.wf, actionLegal_eq_false]

/-- `TOGGLE_ALL` is `TOGGLE` of all relays (R72). -/
theorem encInstr_toggleAll (action : Byte) : encInstr (.toggleAll action) = encInstr (.toggle 0xFF action) := rfl

/-- The body of `PULSE` with each decimal digit of the ticks in its half byte (R73, R75). -/
def pulseBody (index : Byte) (ticks : Nat) : Body :=
  ⟨0x01, 0x05, 0x02, index,
    BitVec.ofNat 8 (16 * (ticks / 1000) + ticks / 100 % 10), BitVec.ofNat 8 (16 * (ticks / 10 % 10) + ticks % 10)⟩

theorem encInstr_pulse {onMs : OnMs} (index : Byte) (h : onMs.toNat ≤ 999999) :
    encInstr (.pulse index onMs) = some (pulseBody index (onMs.toNat / 100)) := by
  have hticks : onMs.toNat / 100 ≤ 9999 := by omega
  rw [pulseBody, ← hi_bcd16 hticks, ← lo_bcd16]
  exact if_pos (onMsLegal_eq_true.mpr h)

theorem encInstr_pulse_eq_none {index : Byte} {onMs : OnMs} :
    encInstr (.pulse index onMs) = none ↔ 999999 < onMs.toNat := by
  rw [encInstr_eq_none_iff, Instr.wf, onMsLegal_eq_false]

/-! ### The acceptance of a command in `IDLE` (R81) -/

theorem exec_start {i : Instr} {B : Body} {s : State} (hp : s.phase = .idle) (hB : encInstr i = some B) :
    exec i s = .next (startCommand B s) := by
  rw [exec_eq, hB, acceptCommand_valid hp]

theorem exec_refuse {i : Instr} {s : State} (hp : s.phase = .idle) (hB : encInstr i = none) :
    exec i s = .next (raise .encError s) := by
  rw [exec_eq, hB, acceptCommand_invalid hp]

/-! ### The request frame of a command (R77) -/

/-- The frame of a descriptor is that of the command it decodes to. -/
theorem requestFrame_of_decode {d : Descriptor} {i : Instr} (h : decode d = .ok i) :
    requestFrame d = (encInstr i).map frameOf := by
  rw [requestFrame, encBody_of_decode h]

theorem requestFrame_toggle {d : Descriptor} {index action : Byte} (hd : decode d = .ok (.toggle index action))
    (ha : action = 0xFF ∨ action = 0x00 ∨ action = 0x55) :
    requestFrame d = some (frameOf ⟨0x01, 0x05, 0x00, index, action, 0x00⟩) := by
  rw [requestFrame_of_decode hd, encInstr_toggle index ha, Option.map_some]

theorem requestFrame_pulse {d : Descriptor} {index : Byte} {onMs : OnMs} (hd : decode d = .ok (.pulse index onMs))
    (h : onMs.toNat ≤ 999999) :
    requestFrame d = some (frameOf (pulseBody index (onMs.toNat / 100))) := by
  rw [requestFrame_of_decode hd, encInstr_pulse index h, Option.map_some]

theorem requestFrame_getVer {d : Descriptor} (hd : decode d = .ok .getVer) :
    requestFrame d = some (frameOf encGetVer) := by
  rw [requestFrame_of_decode hd, encInstr, Option.map_some]

/-- The frame of `TOGGLE_ALL` is that of `TOGGLE 0xFF` (R72). -/
theorem requestFrame_pack_toggleAll (index action : Byte) (onMs onMs' : OnMs) :
    requestFrame (packDescriptor 0x01 index action onMs) = requestFrame (packDescriptor 0x00 0xFF action onMs') := by
  rw [requestFrame_of_decode (decode_pack_toggleAll ..), requestFrame_of_decode (decode_pack_toggle ..),
    encInstr_toggleAll]

theorem requestFrame_pack_toggleAll_eq_none {index action : Byte} {onMs : OnMs} :
    requestFrame (packDescriptor 0x01 index action onMs) = none ↔ action ≠ 0xFF ∧ action ≠ 0x00 ∧ action ≠ 0x55 := by
  rw [requestFrame_of_decode (decode_pack_toggleAll ..), Option.map_eq_none_iff, encInstr_toggleAll,
    encInstr_toggle_eq_none]

theorem requestFrame_pack_toggleAll_of_legal {action : Byte} (index : Byte) (onMs : OnMs)
    (ha : action = 0xFF ∨ action = 0x00 ∨ action = 0x55) :
    requestFrame (packDescriptor 0x01 index action onMs) =
      some (frameOf ⟨0x01, 0x05, 0x00, 0xFF, action, 0x00⟩) := by
  rw [requestFrame_pack_toggleAll index action onMs 0, requestFrame_toggle (decode_pack_toggle ..) ha]

/-! ### The frames the rules print -/

/-- The frame of a body whose CRC, computed by the closed form, is `v`. -/
theorem frameOf_of_crc {B : Body} (v : Crc) (h : B.bytes.foldl crcStepClosed crcInit = v) :
    frameOf B = B.bytes ++ [lo v, hi v] := by
  rw [frameOf, checksumBytes, crcCompute, crcStep_eq_closed, h]

/-- `FLIP` of all relays (R71, R72). -/
theorem frameOf_flip_all :
    frameOf ⟨0x01, 0x05, 0x00, 0xFF, 0x55, 0x00⟩ = [0x01, 0x05, 0x00, 0xFF, 0x55, 0x00, 0xC2, 0xAA] :=
  frameOf_of_crc 0xAAC2 rfl

/-- `ON` of all relays (R72). -/
theorem frameOf_on_all :
    frameOf ⟨0x01, 0x05, 0x00, 0xFF, 0xFF, 0x00⟩ = [0x01, 0x05, 0x00, 0xFF, 0xFF, 0x00, 0xBC, 0x0A] :=
  frameOf_of_crc 0x0ABC rfl

/-- `OFF` of all relays (R72). -/
theorem frameOf_off_all :
    frameOf ⟨0x01, 0x05, 0x00, 0xFF, 0x00, 0x00⟩ = [0x01, 0x05, 0x00, 0xFF, 0x00, 0x00, 0xFD, 0xFA] :=
  frameOf_of_crc 0xFAFD rfl

/-- A pulse of 500 ms (R73). -/
theorem frameOf_pulse_five_ticks :
    frameOf (pulseBody 0x03 5) = [0x01, 0x05, 0x02, 0x03, 0x00, 0x05, 0xFC, 0x71] :=
  frameOf_of_crc 0x71FC rfl

/-- A pulse of 1500 ms (R73). -/
theorem frameOf_pulse_fifteen_ticks :
    frameOf (pulseBody 0x03 15) = [0x01, 0x05, 0x02, 0x03, 0x00, 0x15, 0xFD, 0xBD] :=
  frameOf_of_crc 0xBDFD rfl

/-- The one frame of `GET_VER` (R74). -/
theorem frameOf_getVer : frameOf encGetVer = [0x01, 0x03, 0x80, 0x00, 0x00, 0x01, 0xAD, 0xCA] :=
  frameOf_of_crc 0xCAAD rfl

end Sys2Proof.Machine

namespace Sys2Proof.Proofs

open Sys2Proof.Machine

/-- Settles O10: the four half bytes are the decimal digits, and 9999 has no fifth. -/
theorem pulseTickIsDecimalReadAsHex : Obligations.PulseTickIsDecimalReadAsHex := fun t ht =>
  ⟨bcd16_toNat t, bcd16_toNat_eq_ofDigits ht⟩

/-- Settles O12: both commands have one body, by which the frame and its absence are decided. -/
theorem toggleAllDelegatesToToggle : Obligations.ToggleAllDelegatesToToggle := by
  refine ⟨requestFrame_pack_toggleAll, fun _ _ _ => requestFrame_pack_toggleAll_eq_none,
    fun index onMs => ⟨?on, ?off, ?flip⟩⟩
  case on => rw [requestFrame_pack_toggleAll_of_legal index onMs (by simp), frameOf_on_all]
  case off => rw [requestFrame_pack_toggleAll_of_legal index onMs (by simp), frameOf_off_all]
  case flip => rw [requestFrame_pack_toggleAll_of_legal index onMs (by simp), frameOf_flip_all]

/-- Settles O16: a legal on-time starts the command with the digits of its ticks, a longer one is refused. -/
theorem pulseStartsItsCommand : Obligations.PulseStartsItsCommand := by
  refine ⟨fun index _ _ hp h => exec_start hp (encInstr_pulse index h),
    fun _ _ _ hp h => exec_refuse hp (encInstr_pulse_eq_none.mpr h), ?fiveTicks, ?fifteenTicks⟩
  case fiveTicks =>
    have hd : decode 0x0203000001F4 = .ok (.pulse 0x03 500) := rfl
    exact (requestFrame_pulse hd (by simp)).trans (congrArg some frameOf_pulse_five_ticks)
  case fifteenTicks =>
    have hd : decode 0x0203000005DC = .ok (.pulse 0x03 1500) := rfl
    exact (requestFrame_pulse hd (by simp)).trans (congrArg some frameOf_pulse_fifteen_ticks)

/-- Settles O14: a legal action starts the command, another is refused. -/
theorem toggleStartsItsCommand : Obligations.ToggleStartsItsCommand := by
  refine ⟨fun index _ _ hp ha => exec_start hp (encInstr_toggle index ha),
    fun _ _ _ hp hOn hOff hFlip => exec_refuse hp (encInstr_toggle_eq_none.mpr ⟨hOn, hOff, hFlip⟩), ?flipAll⟩
  have hd : decode 0x00FF55000000 = .ok (.toggle 0xFF 0x55) := rfl
  rw [requestFrame_toggle hd (by simp), frameOf_flip_all]

/-- Settles O17: the encoder answers `GET_VER` with a constant, whatever the fields it does not use. -/
theorem getVerStartsItsCommand : Obligations.GetVerStartsItsCommand := by
  refine ⟨fun _ hp => exec_start (B := encGetVer) hp rfl, fun index action onMs => ?frame⟩
  rw [requestFrame_getVer (decode_pack_getVer index action onMs), frameOf_getVer]

end Sys2Proof.Proofs
end

section
/-! PROOFS. The send sequencer and the response reader (`spec/42_sequencer_reader.md`): what one edge makes of the tick
counter, of the byte the link takes and of the byte read; then the state after an edge (R80), by which connection errors
(R88) and the ownership of the connection (R91) are decided. -/

namespace Sys2Proof.Machine

/-! ### The conditions an edge tests (R19, R85, R87) -/

theorem expired_eq_true {s : State} : s.expired = true ↔ s.timeoutR < s.elapsed := by simp [State.expired]

theorem expired_eq_false {s : State} : s.expired = false ↔ s.elapsed ≤ s.timeoutR := by simp [State.expired]

theorem bufferFull_eq_true {s : State} : s.bufferFull = true ↔ s.params.respCap = some s.len := by
  simp [State.bufferFull]

theorem bufferFull_eq_false {s : State} : s.bufferFull = false ↔ s.params.respCap ≠ some s.len := by
  simp [State.bufferFull]

/-- Room in the buffer: it is not full, and the index `len` is one of its own (R30). -/
theorem bufferFull_eq_false_of_room {s : State} (h : ∀ cap, s.params.respCap = some cap → s.len < cap) :
    s.bufferFull = false :=
  bufferFull_eq_false.mpr fun hf => Nat.lt_irrefl _ (h _ hf)

theorem indexExists_of_room {s : State} (h : ∀ cap, s.params.respCap = some cap → s.len < cap) :
    indexExists s.params s.len = true := by
  unfold indexExists
  cases hc : s.params.respCap with
  | none => rfl
  | some cap => exact decide_eq_true (h cap hc)

/-! ### The states by kind (R9, R91) -/

theorem active_iff {p : Phase} : p.active = true ↔ p = .sent ∨ p = .reading := by simp [Phase.active]

/-- `IDLE`, the two states with a connection and the terminal states are all there are. -/
theorem active_eq_false_iff {p : Phase} : p.active = false ↔ p = .idle ∨ p.terminal = true := by
  cases p <;> decide

theorem active_eq_false_of_terminal {p : Phase} (h : p.terminal = true) : p.active = false :=
  active_eq_false_iff.mpr (.inr h)

theorem terminal_of_ne {p : Phase} (hi : p ≠ .idle) (hs : p ≠ .sent) (hr : p ≠ .reading) : p.terminal = true :=
  (active_eq_false_iff.mp (by simp [Phase.active, hs, hr])).resolve_left hi

theorem ne_idle_of_terminal {p : Phase} (h : p.terminal = true) : p ≠ .idle := by
  rintro rfl
  cases h

/-! ### The tick counter (R83) -/

/-- `elapsed` after an edge that counts ticks, written as R83 writes it. -/
def State.elapsedAfter (tick : Bool) (s : State) : Nat :=
  if tick = true ∧ s.elapsed < 2 ^ (s.params.timerW + 1) - 1 then s.elapsed + 1 else s.elapsed

theorem countTick_eq (tick : Bool) (s : State) : countTick tick s = { s with elapsed := s.elapsedAfter tick } := by
  unfold countTick State.elapsedAfter elapsedMax
  by_cases h : tick = true ∧ s.elapsed < 2 ^ (s.params.timerW + 1) - 1
  · simp [h]
  · rw [if_neg (by simpa using h), if_neg h]

theorem countTick_elapsedAfter (tick : Bool) (s : State) : (countTick tick s).elapsed = s.elapsedAfter tick := by
  rw [countTick_eq]

/-- Below its largest value the counter adds the tick, and there it stays. -/
theorem elapsedAfter_eq_min {s : State} (tick : Bool) (h : s.elapsed ≤ 2 ^ (s.params.timerW + 1) - 1) :
    s.elapsedAfter tick = min (s.elapsed + if tick then 1 else 0) (2 ^ (s.params.timerW + 1) - 1) := by
  cases tick
  · simp [State.elapsedAfter, h]
  · simp only [State.elapsedAfter, true_and, if_true]
    split_ifs <;> omega

/-- A step whose edge counts ticks: the next state without the tick counter, `v`, gives all the other elements. -/
theorem step_of_ticked {s v : State} (h : StepCase s.inp s (countTick s.inp.tickI v)) :
    step s = .next { v with elapsed := v.elapsedAfter s.inp.tickI, stim := v.stim.tail, cycle := v.cycle + 1 } := by
  rw [step_of_stepCase h, countTick_eq]
  rfl

/-! ### The byte the link takes, as a whole next state (R82) -/

theorem takeTxByte_of_body {s : State} {b : Byte} (h : s.body.byte? s.txCnt.toNat = some b) :
    takeTxByte s = { s with crc := crcStep s.crc b, txCnt := s.txCnt + 1 } := by
  have h6 : s.txCnt.toNat < 6 := byte?_eq_some.mp ⟨b, h⟩
  have h7 : s.txCnt ≠ 7 := fun h7 => by simp [h7] at h6
  simp only [takeTxByte, h, h7, if_false]
  rfl

theorem takeTxByte_of_crc_low {s : State} (h : s.txCnt = 6) : takeTxByte s = { s with txCnt := 7 } := by
  simp [takeTxByte, h, byte?_eq_none]

theorem takeTxByte_of_crc_high {s : State} (h : s.txCnt = 7) :
    takeTxByte s = { s with phase := .reading, crc := crcInit, txCnt := 8 } := by
  simp [takeTxByte, h, byte?_eq_none, crcReset]

/-- The register goes on holding the CRC of the body bytes sent (R67). -/
theorem crcStep_sent {B : Body} {c : Crc} {b : Byte} {k : Nat} (hb : B.bytes[k]? = some b)
    (hc : c = crcCompute (B.bytes.take k)) : crcStep c b = crcCompute (B.bytes.take (k + 1)) := by
  rw [List.take_add_one, hb, Option.toList_some, crcCompute_append_one, hc]

/-! ### `elapsed` and the parameters over an edge (R6, R83) -/

theorem stepCase_params {i : Inputs} {s u : State} (h : StepCase i s u) : u.params = s.params := by
  cases h <;> simp

/-- In `SENT` and `READING` every edge but reset counts its tick, whatever transition it makes. -/
theorem stepCase_elapsed_active {i : Inputs} {s u : State} (h : StepCase i s u) (hr : i.rst = false)
    (ha : s.phase.active = true) : u.elapsed = s.elapsedAfter i.tickI := by
  cases h with
  | reset hr' => simp [hr] at hr'
  | idleHold _ hp | idleStart _ _ hp | idleInvalid _ hp => simp [hp, Phase.active] at ha
  | terminalHold _ hp | terminalAck _ hp => simp [active_eq_false_of_terminal hp] at ha
  | sentTake => simp [countTick_elapsedAfter, State.elapsedAfter]
  | sentError | sentWait | readTimeout | readError | readOverflow | readStore | readWait =>
    exact countTick_elapsedAfter ..

/-- In every other state only the acceptance of a valid command writes `elapsed`. -/
theorem stepCase_elapsed_inactive {i : Inputs} {s u : State} (h : StepCase i s u) (hr : i.rst = false)
    (ha : s.phase.active = false) :
    u.elapsed = if s.phase = .idle ∧ i.cmdValid = true ∧ encBody i.cmd ≠ none then 0 else s.elapsed := by
  cases h with
  | reset hr' => simp [hr] at hr'
  | idleHold _ _ hv => simp [hv]
  | idleStart _ _ hp hv hB => simp [hp, hv, hB]
  | idleInvalid _ _ _ hB => simp [hB]
  | terminalHold _ hp | terminalAck _ hp => simp [ne_idle_of_terminal hp]
  | sentError _ hp | sentTake _ hp | sentWait _ hp | readTimeout _ hp | readError _ hp | readOverflow _ hp
  | readStore _ hp | readWait _ hp => simp [hp, Phase.active] at ha

/-! ### `elapsed` over a run of a command (R83) -/

theorem during_succ {n : Nat} {s t : State} {P : State → Prop} (h : During (n + 1) s P) (hs : step s = .next t) :
    P s ∧ During n t P :=
  ⟨h 0 n.succ_pos s rfl, fun m hm u hu => h (m + 1) (Nat.succ_lt_succ hm) u (by simpa [run, hs] using hu)⟩

/-- From any count within its width, `elapsed` gains the ticks sampled, and stops at its largest value. -/
theorem elapsed_of_run (n : Nat) {s t : State} (hw : s.elapsed ≤ 2 ^ (s.params.timerW + 1) - 1)
    (hd : During n s fun u => u.phase.active = true ∧ u.inp.rst = false) (h : run n s = .next t) :
    t.elapsed = min (s.elapsed + ticksOver n s) (2 ^ (s.params.timerW + 1) - 1) := by
  induction n generalizing s with
  | zero =>
    obtain rfl := Host.Outcome.next.inj h
    exact (min_eq_left hw).symm
  | succ n ih =>
    rcases step_stops s with ⟨v, hv⟩ | ⟨hf, -⟩
    · obtain ⟨⟨hactive, hrst⟩, hd⟩ := during_succ hd hv
      obtain ⟨u, hu, rfl⟩ := step_cases hv
      have hparams : u.advance.params = s.params := stepCase_params (u := u) hu
      have helapsed : u.advance.elapsed =
          min (s.elapsed + if s.inp.tickI then 1 else 0) (2 ^ (s.params.timerW + 1) - 1) :=
        (stepCase_elapsed_active (u := u) hu hrst hactive).trans (elapsedAfter_eq_min _ hw)
      simp only [run, hv] at h
      have hrest := ih (by rw [hparams, helapsed]; exact min_le_right _ _) hd h
      simp only [ticksOver, hv]
      rw [hrest, hparams, helapsed]
      omega
    · simp [run, hf] at h

/-! ### The state after an edge (R80) -/

/-- Only a link error that no earlier test hides enters `CONN_ERROR` (R88). -/
theorem stepCase_enters_connError {i : Inputs} {s u : State} (h : StepCase i s u) (hu : u.phase = .connError)
    (hs : s.phase ≠ .connError) :
    i.linkErr = true ∧ (s.phase = .sent ∨ (s.phase = .reading ∧ s.elapsed ≤ s.timeoutR)) := by
  cases h with
  | sentError _ hp he => exact ⟨he, .inl hp⟩
  | readError _ hp hx he => exact ⟨he, .inr ⟨hp, expired_eq_false.mp hx⟩⟩
  | sentTake _ hp => rw [countTick_phase, takeTxByte_phase, hp] at hu; split_ifs at hu
  | readStore _ hp => rw [countTick_phase, storeRxByte_phase, hp] at hu; split_ifs at hu
  | sentWait | readWait => exact absurd (countTick_phase .. ▸ hu) hs
  | idleHold | terminalHold => exact absurd hu hs
  | readTimeout | readOverflow => simp [ErrorOutcome.phase] at hu
  | reset | idleStart | idleInvalid | terminalAck => cases hu

/-- A connection is taken up by the acceptance of a valid command alone (R91). -/
theorem stepCase_takes_connection {i : Inputs} {s u : State} (h : StepCase i s u) (ha : s.phase.active = false) :
    u.phase.active = true ↔ i.rst = false ∧ s.phase = .idle ∧ i.cmdValid = true ∧ encBody i.cmd ≠ none := by
  cases h with
  | reset hr => simp [hr, Phase.active]
  | idleHold _ _ hv => simp [ha, hv]
  | idleStart _ hr hp hv hB => simp [hr, hp, hv, hB, Phase.active]
  | idleInvalid _ _ _ hB => simp [hB, Phase.active, ErrorOutcome.phase]
  | terminalHold _ hp => simp [ha, ne_idle_of_terminal hp]
  | terminalAck _ hp => simp [ne_idle_of_terminal hp, Phase.active]
  | sentError _ hp | sentTake _ hp | sentWait _ hp | readTimeout _ hp | readError _ hp | readOverflow _ hp
  | readStore _ hp | readWait _ hp => simp [hp, Phase.active] at ha

/-- From `SENT` and `READING` only reset leads to `IDLE` (R91, R115). -/
theorem stepCase_idle_of_active {i : Inputs} {s u : State} (h : StepCase i s u) (ha : s.phase.active = true) :
    u.phase = .idle ↔ i.rst = true := by
  cases h with
  | reset hr => simp [hr]
  | idleHold _ hp | idleStart _ _ hp | idleInvalid _ hp => simp [hp, Phase.active] at ha
  | terminalHold _ hp | terminalAck _ hp => simp [active_eq_false_of_terminal hp] at ha
  | sentTake hr hp => simp only [countTick_phase, takeTxByte_phase, hp, hr]; split_ifs <;> simp
  | readStore hr hp => simp only [countTick_phase, storeRxByte_phase, hp, hr]; split_ifs <;> simp
  | sentWait hr hp | readWait hr hp => simp [hr, hp]
  | sentError hr | readTimeout hr | readError hr | readOverflow hr => simp [hr, ErrorOutcome.phase]

end Sys2Proof.Machine

namespace Sys2Proof.Proofs

open Sys2Proof.Machine

/-- Settles O23: each case of `SENT` is one case of the step, with the tick counter beside it. -/
theorem sentEdge : Obligations.SentEdge := by
  intro s hp hr e
  refine ⟨beq_iff_eq.mpr hp, active_iff.mpr (.inl hp), ?rxReady, ?txLast,
    fun he => step_of_ticked (v := raise .connError s) (.sentError hr hp he),
    fun he ht => step_of_ticked (v := s) (.sentWait hr hp he ht),
    fun he ht => ?taken⟩
  case rxReady => simp [rxReady_eq, hp]
  case txLast => simp [State.outputs, hp, Bool.beq_eq_decide_eq]
  case taken =>
    have hstep := step_of_ticked (.sentTake hr hp he ht)
    refine ⟨fun b _ hb => ⟨txData_of_body hp hb, crcStep_sent hb, ?body⟩,
      fun h6 => ⟨(txData_of_crc_low hp h6).trans (lo_eq_extractLsb' _), ?low⟩,
      fun h7 => ⟨(txData_of_crc_high hp (by simp [h7])).trans (hi_eq_extractLsb' _), ?high⟩⟩
    case body => rwa [takeTxByte_of_body hb] at hstep
    case low => rwa [takeTxByte_of_crc_low h6] at hstep
    case high => rwa [takeTxByte_of_crc_high h7] at hstep

/-- Settles O24: one edge by the kind of its state, a run by induction on its edges from any count within the width. -/
theorem elapsedCounter : Obligations.ElapsedCounter := by
  refine ⟨fun s t hr h => ?edge, fun n s t _ h0 hd h => ?run⟩
  case edge =>
    obtain ⟨u, hu, rfl⟩ := step_cases h
    rw [advance_elapsed]
    by_cases ha : s.phase.active = true
    · rw [if_pos (active_iff.mp ha)]
      exact stepCase_elapsed_active hu hr ha
    · rw [if_neg (mt active_iff.mpr ha)]
      exact stepCase_elapsed_inactive hu hr (Bool.eq_false_of_not_eq_true ha)
  case run =>
    have hrun := elapsed_of_run n (by omega) hd h
    rwa [h0, Nat.zero_add] at hrun

/-- Settles O25: the tests in the order of R84. -/
theorem readingEdgeWithoutByte : Obligations.ReadingEdgeWithoutByte := by
  intro s hp hr e
  refine ⟨active_iff.mpr (.inr hp),
    fun hx => ⟨?expired, step_of_ticked (v := raise .timeout s) (.readTimeout hr hp (expired_eq_true.mpr hx))⟩,
    fun hx he => ⟨?error, step_of_ticked (v := raise .connError s) (.readError hr hp (expired_eq_false.mpr hx) he)⟩,
    fun hx he hv => ⟨?wait, step_of_ticked (v := s) (.readWait hr hp (expired_eq_false.mpr hx) he hv)⟩⟩
  case expired => simp [rxReady_eq, hx]
  case error => simp [rxReady_eq, he]
  case wait => simp [rxReady_eq, hp, hx, he]

/-- Settles O26: with the buffer full the byte is dropped, else it is the last of the bytes received. -/
theorem readingEdgeWithByte : Obligations.ReadingEdgeWithByte := by
  intro s hp hr hx he hv e
  have hx' : s.expired = false := expired_eq_false.mpr hx
  refine ⟨by simp [rxReady_eq, hp, hx, he],
    fun hf => step_of_ticked (v := raise .overflow s) (.readOverflow hr hp hx' he hv (bufferFull_eq_true.mpr hf)),
    fun hroom => ⟨_, step_of_ticked (v := storeRxByte s.inp.rxData s)
      (.readStore hr hp hx' he hv (bufferFull_eq_false_of_room hroom) (indexExists_of_room hroom)),
      ?state, fun hcrc => ?crc, fun a => read_write ..⟩⟩
  case state => rw [← hp]; rfl
  case crc =>
    rw [received_store s.inp.rxData s _ rfl rfl, crcCompute_append_one, ← hcrc]
    rfl

/-- Settles O27: both link errors raise `CONN_ERROR`, and no other case of the step enters it. -/
theorem connectionErrorEndsTheCommand : Obligations.ConnectionErrorEndsTheCommand := by
  refine fun s hr => ⟨fun he hcase => ?raised, fun t h ht hs => ?only⟩
  case raised =>
    refine step_of_ticked (v := raise .connError s) ?_
    rcases hcase with hp | ⟨hp, hx⟩
    · exact .sentError hr hp he
    · exact .readError hr hp (expired_eq_false.mpr hx) he
  case only =>
    obtain ⟨u, hu, rfl⟩ := step_cases h
    exact stepCase_enters_connError hu ht hs

/-- Settles O29, case by case of the step. -/
theorem transitionTable : Obligations.TransitionTable := by
  intro s t h
  obtain ⟨u, hu, rfl⟩ := step_cases h
  rw [advance_phase]
  cases hu with
  | reset hr => simp [hr]
  | idleHold hr hp hv => simp [hr, hp, hv]
  | idleStart B hr hp hv hB => simp [hr, hp, hv, hB]
  | idleInvalid hr hp hv hB => simp [hr, hp, hv, hB, ErrorOutcome.phase]
  | sentError hr hp he => simp [hr, hp, he, ErrorOutcome.phase]
  | sentTake hr hp he ht => simp [hr, hp, he, ht]
  | sentWait hr hp he ht => simp [hr, hp, he, ht]
  | readTimeout hr hp hx => simp [hr, hp, expired_eq_true.mp hx, ErrorOutcome.phase]
  | readError hr hp hx he => simp [hr, hp, expired_eq_false.mp hx, he, ErrorOutcome.phase]
  | readOverflow hr hp hx he hv hf =>
    simp [hr, hp, expired_eq_false.mp hx, he, hv, bufferFull_eq_true.mp hf, ErrorOutcome.phase]
  | readStore hr hp hx he hv hf hi => simp [hr, hp, expired_eq_false.mp hx, he, hv, bufferFull_eq_false.mp hf]
  | readWait hr hp hx he hv => simp [hr, hp, expired_eq_false.mp hx, he, hv]
  | terminalHold hr hp ha => rcases (terminal_iff _).mp hp with hp | hp | hp | hp | hp <;> simp [hr, hp, ha]
  | terminalAck hr hp ha => rcases (terminal_iff _).mp hp with hp | hp | hp | hp | hp <;> simp [hr, hp, ha]

/-- Settles O35: without a connection only an acceptance takes one up; with one, `IDLE` is reached by reset alone. -/
theorem connectionOwnership : Obligations.ConnectionOwnership := by
  intro s t h
  obtain ⟨u, hu, rfl⟩ := step_cases h
  refine ⟨active_iff, active_eq_false_of_terminal, stepCase_takes_connection (u := u) hu, fun ha => ?falls⟩
  calc u.phase.active = false
    _ ↔ u.phase = .idle ∨ u.phase.terminal = true := active_eq_false_iff
    _ ↔ s.inp.rst = true ∨ u.phase.terminal = true := by rw [stepCase_idle_of_active hu ha]

/-- Settles O22: the three cases of `IDLE`. -/
theorem idleEdge : Obligations.IdleEdge := fun _ hp hr =>
  ⟨beq_iff_eq.mpr hp, fun hv => step_of_stepCase (.idleHold hr hp hv), step_refuse hp hr,
    fun _ hv hB => ⟨_, step_accept hp hr hv hB, rfl, rfl⟩⟩

/-- Settles O28: what is neither `IDLE` nor has a connection is terminal, and shows its own code. -/
theorem terminalEdge : Obligations.TerminalEdge := by
  intro s hidle hsent hreading hr
  have hp : s.phase.terminal = true := terminal_of_ne hidle hsent hreading
  exact ⟨hp, congrArg Phase.code, congrArg Phase.code, congrArg Phase.code, congrArg Phase.code, congrArg Phase.code,
    active_eq_false_of_terminal hp, beq_false_of_ne hsent, by simp [rxReady_eq, hreading], beq_false_of_ne hidle,
    fun ha => step_of_stepCase (.terminalAck hr hp ha), fun ha => step_of_stepCase (.terminalHold hr hp ha)⟩

end Sys2Proof.Proofs
end

section
/-! PROOFS. Reset (`spec/70_reset_and_hazards.md`): the output ports in `IDLE`, which the edge with `rst` at 1 enters
from every state. -/

namespace Sys2Proof.Machine

/-- In `IDLE` only the ports of `len`, of the buffer and of the CRC register are not constant (R18). -/
theorem outputs_of_idle {s : State} (hp : s.phase = .idle) :
    s.outputs = { cmdReady := true, txValid := false, txData := 0, txLast := false, rxReady := false,
                  linkReq := false, resValid := false, resStatus := 0, respLen := s.len, rdData := s.outputs.rdData,
                  crcO := s.crc, crcZeroO := s.crcZero } := by
  have htx : s.txData = 0 := txData_of_not_sent (by simp [hp])
  simp only [State.outputs, State.resValid, htx, hp]
  rfl

/-- The edge with `rst` at 1, whatever the state and the other inputs (R115). -/
theorem step_reset {s : State} (hr : s.inp.rst = true) : step s = .next (resetEdge s).advance :=
  step_of_stepCase (.reset hr)

end Sys2Proof.Machine

namespace Sys2Proof.Proofs

open Sys2Proof.Machine

/-- Settles O20: reset leads to `IDLE` with `len` 0 and the initial CRC, which is not 0. -/
theorem resetEdge : Obligations.ResetEdge := by
  intro s hr
  have hidle : (Machine.resetEdge s).advance.phase = .idle := resetEdge_phase s
  exact ⟨_, step_reset hr, rfl, outputs_of_idle hidle⟩

end Sys2Proof.Proofs
end

section
/-! PROOFS. The rest of the descriptor, of the CRC generator and of the frame encoder: what the encoder writes is read
back (R49, R50), the CRC step loses nothing (R61), the printed CRC values, and the form of every request frame (R77). -/

-- The proofs of this part are elaborated in order, not all at once: beside the model's tests, which wait for the kernel,
-- the threads and the memory of the check are few. No `variable` stands here, so the option changes no statement.
set_option deprecated.oldSectionVars true

namespace Sys2Proof.Machine

/-! ### The CRC generator (R61, R62) -/

/-- For a fixed byte the step loses nothing of the register (R61). -/
theorem crcStep_injective_crc (b : Byte) : Function.Injective (fun c : Crc => crcStep c b) := by
  intro c c' h
  simp only [crcStep_xor, crcRounds_inj] at h
  exact BitVec.xor_left_inj _ |>.mp h

/-- For a fixed register the step loses nothing of the byte (R61). -/
theorem crcStep_injective_byte (c : Crc) : Function.Injective (crcStep c) := by
  intro b b' h
  simp only [crcStep_xor, crcRounds_inj, BitVec.xor_right_inj] at h
  simpa using congrArg (BitVec.setWidth 8) h

/-- The CRC of a sequence, computed by the closed form of the table. -/
theorem crcCompute_eq_closed (bs : List Byte) : crcCompute bs = bs.foldl crcStepClosed crcInit := by
  rw [crcCompute, crcStep_eq_closed]

/-! ### The request frame (R45, R46, R77) -/

/-- Every body begins with the slave address and one of the two function codes (R5, R71 to R74). -/
theorem encInstr_header {i : Instr} {B : Body} (h : encInstr i = some B) :
    B.b0 = 0x01 ∧ (B.b1 = 0x05 ∨ B.b1 = 0x03) := by
  cases i with
  | toggle index action | toggleAll action =>
    simp only [encInstr, encToggle, Option.ite_none_right_eq_some, Option.some.injEq] at h
    obtain ⟨-, rfl⟩ := h
    exact ⟨rfl, .inl rfl⟩
  | pulse index onMs =>
    simp only [encInstr, encPulse, Option.ite_none_right_eq_some, Option.some.injEq] at h
    obtain ⟨-, rfl⟩ := h
    exact ⟨rfl, .inl rfl⟩
  | getVer =>
    obtain rfl := Option.some.inj h
    exact ⟨rfl, .inr rfl⟩

/-- A descriptor with a body decodes to a command with that body. -/
theorem encBody_eq_some {d : Descriptor} {B : Body} (h : encBody d = some B) :
    ∃ i, decode d = .ok i ∧ encInstr i = some B := by
  unfold encBody at h
  cases hd : decode d with
  | ok i => exact ⟨i, rfl, by simpa [hd] using h⟩
  | error e => simp [hd] at h

theorem requestFrame_eq_some {d : Descriptor} {f : List Byte} :
    requestFrame d = some f ↔ ∃ B, encBody d = some B ∧ frameOf B = f := Option.map_eq_some_iff

end Sys2Proof.Machine

namespace Sys2Proof.Proofs

open Sys2Proof.Machine

/-- Settles O6: each row reads back the fields it uses, from a descriptor with its own operation code. -/
theorem decodeOfEncode : Obligations.DecodeOfEncode := by
  intro i
  cases i with
  | toggle index action => exact decode_pack_toggle index action 0
  | toggleAll action => exact decode_pack_toggleAll 0 action 0
  | pulse index onMs => exact decode_pack_pulse index 0 onMs
  | getVer => exact decode_pack_getVer 0 0 0

/-- Settles O4: the step is injective in both arguments, and an injective map of the finite register is a bijection. -/
theorem crcStepLosesNothing : Obligations.CrcStepLosesNothing :=
  ⟨fun b => Finite.injective_iff_bijective.mp (crcStep_injective_crc b), crcStep_injective_byte⟩

/-- Settles O13: the frame is a body with its header, followed by its own checksum (R66). -/
theorem requestFramesAreWellFormed : Obligations.RequestFramesAreWellFormed := by
  intro d f h
  obtain ⟨B, hB, rfl⟩ := requestFrame_eq_some.mp h
  obtain ⟨i, -, hi⟩ := encBody_eq_some hB
  obtain ⟨haddr, hcode⟩ := encInstr_header hi
  have htake : (frameOf B).take 6 = B.bytes := rfl
  have hdrop : (frameOf B).drop 6 = checksumBytes B.bytes := rfl
  refine ⟨rfl, congrArg some haddr, hcode.imp (congrArg some) (congrArg some), ?_, crcCompute_append_checksumBytes _⟩
  rw [hdrop, htake, checksumBytes, lo_eq_extractLsb', hi_eq_extractLsb']

/-- Settles O1, by the closed form of the step. -/
theorem crcWorkedExamples : Obligations.CrcWorkedExamples := by
  unfold Obligations.CrcWorkedExamples
  simp only [crcCompute_eq_closed]
  exact ⟨rfl, rfl, rfl, rfl, rfl⟩

/-- Settles O9: each descriptor's operation code selects its row. -/
theorem writtenDescriptorsDecode : Obligations.WrittenDescriptorsDecode :=
  ⟨decode_of_op_toggle rfl, decode_of_op_toggleAll rfl, decode_of_op_pulse rfl, decode_of_op_getVer rfl,
    decode_of_op_reserved (d := 0x05FF55000000) (by decide)⟩

/-- Settles O15: `TOGGLE_ALL` is `TOGGLE` of all relays. -/
theorem toggleAllStartsItsCommand : Obligations.ToggleAllStartsItsCommand :=
  ⟨fun _ _ hp ha => exec_start (i := .toggleAll _) hp (encInstr_toggle 0xFF ha),
    fun _ _ hp hOn hOff hFlip =>
      exec_refuse (i := .toggleAll _) hp (encInstr_toggle_eq_none (index := 0xFF).mpr ⟨hOn, hOff, hFlip⟩)⟩

end Sys2Proof.Proofs
end

section
/-! PROOFS. The command port and the widths: what a step does with the command at the port (R24, R80, R81), the width
`LEN_W` and the buffer read port (R6, R17), and the host's field view of a response (R47). -/

-- The proofs are elaborated in order, as in the part on the descriptor, the CRC generator and the frame encoder.
set_option deprecated.oldSectionVars true

namespace Sys2Proof.Machine

/-! ### The command port (R24, R81) -/

/-- The command of a table word that decodes, as the decoder reads it from the port (R32). -/
theorem decodeTableWord_eq_some {nbits w : Nat} {i : Instr} (h : decodeTableWord nbits w = some i) :
    decode (BitVec.ofNat 48 (w % 2 ^ nbits)) = .ok i := by
  unfold decodeTableWord at h
  cases hd : decode (BitVec.ofNat 48 (w % 2 ^ nbits)) with
  | ok j => simpa [hd] using h
  | error e => simp [hd] at h

/-- The sample of an offered command: the descriptor is valid at the port and `rst` is low. -/
theorem withFetchWord_inp (s : State) (nbits w : Nat) :
    (s.withFetchWord nbits w).inp.rst = false ∧ (s.withFetchWord nbits w).inp.cmdValid = true ∧
      (s.withFetchWord nbits w).inp.cmd = BitVec.ofNat 48 (w % 2 ^ nbits) := by
  cases hs : s.stim <;> simp [State.inp, State.withFetchWord, offerCommand, hs, Inputs.quiet]

/-- A step in `IDLE` with a command at the port is that command's meaning (R80, R81). -/
theorem step_exec {s : State} {i : Instr} (hp : s.phase = .idle) (hr : s.inp.rst = false)
    (hv : s.inp.cmdValid = true) (hd : decode s.inp.cmd = .ok i) :
    step s = .next (acceptCommand (encInstr i) s).advance := by
  simp [step, edge_idle hr hp, hv, encBody_of_decode hd]

/-! ### `LEN_W` and the buffer read port (R6, R17) -/

/-- `LEN_W` is the least width that holds `RESP_CAP` (R6). -/
theorem le_two_pow_iff_log2_lt {cap v : Nat} (h : 1 ≤ cap) : cap + 1 ≤ 2 ^ v ↔ Nat.log2 cap + 1 ≤ v := by
  rw [Nat.succ_le_iff, Nat.succ_le_iff, Nat.log2_lt (by omega)]

theorem lenW_of_respCap {p : Config.Params} {cap : Nat} (h : p.respCap = some cap) :
    lenW p = some (Nat.log2 cap + 1) := by
  simp [lenW, h]

theorem sampledRdAddr_of_lenW {s : State} {w : Nat} (h : lenW s.params = some w) :
    s.sampledRdAddr = s.inp.rdAddr % 2 ^ w := by
  simp [State.sampledRdAddr, h]

theorem rdDataAt_of_written {s : State} {a : Nat} {b : Byte} (ha : a < s.len) (hb : Memory.read s.buf a = some b) :
    s.rdDataAt a = b := by
  simp [State.rdDataAt, ha, hb]

/-! ### The field view of a response (R47) -/

theorem viewBytes_fields (slave function crcLow crcHigh : Byte) (payload : List Byte) :
    viewBytes ([slave, function] ++ payload ++ [crcLow, crcHigh]) =
      some ⟨slave, function, payload, crcLow, crcHigh⟩ := by
  simp [viewBytes]

theorem viewBytes_of_short {bytes : List Byte} (h : bytes.length < 4) : viewBytes bytes = none := by
  obtain _ | ⟨_, _ | ⟨_, _ | ⟨_, _ | ⟨_, rest⟩⟩⟩⟩ := bytes
  case cons.cons.cons.cons => exact absurd h (Nat.not_lt.mpr (Nat.le_add_left 4 rest.length))
  all_goals rfl

/-- A sequence of four bytes or more has the fields of R47. -/
theorem exists_fields {bytes : List Byte} (h : 4 ≤ bytes.length) :
    ∃ slave function crcLow crcHigh payload, bytes = [slave, function] ++ payload ++ [crcLow, crcHigh] := by
  obtain _ | ⟨slave, _ | ⟨function, rest⟩⟩ := bytes
  · simp at h
  · simp at h
  rcases List.eq_nil_or_concat' rest with rfl | ⟨init, crcHigh, rfl⟩
  · simp at h
  rcases List.eq_nil_or_concat' init with rfl | ⟨payload, crcLow, rfl⟩
  · simp at h
  · exact ⟨slave, function, crcLow, crcHigh, payload, by simp⟩

/-- The view of a sequence of `n + 4` bytes, by the indices of R47. -/
theorem viewBytes_of_long {bytes : List Byte} {n : Nat} (h : bytes.length = n + 4) :
    ∃ v, viewBytes bytes = some v ∧ bytes[0]? = some v.slave ∧ bytes[1]? = some v.function ∧ v.payload.length = n ∧
      (∀ k, k < n → bytes[k + 2]? = v.payload[k]?) ∧ bytes[n + 2]? = some v.crcLow ∧
      bytes[n + 3]? = some v.crcHigh := by
  obtain ⟨slave, function, crcLow, crcHigh, payload, rfl⟩ := exists_fields (h ▸ Nat.le_add_left 4 n)
  obtain rfl : payload.length = n := by simpa using h
  refine ⟨_, viewBytes_fields slave function crcLow crcHigh payload, rfl, rfl, rfl,
    fun k hk => List.getElem?_append_left (Nat.add_lt_add_right hk 2), ?low, ?high⟩
  case low => exact (List.getElem?_append_right le_rfl).trans (by rw [Nat.sub_self]; rfl)
  case high => exact (List.getElem?_append_right (Nat.le_succ _)).trans (by rw [Nat.succ_sub le_rfl, Nat.sub_self]; rfl)

end Sys2Proof.Machine

namespace Sys2Proof.Proofs

open Sys2Proof.Machine

/-- Settles O18: every meaning is the acceptance of a body, which outside `IDLE` changes nothing. -/
theorem commandsOutsideIdleHaveNoEffect : Obligations.CommandsOutsideIdleHaveNoEffect := fun i s =>
  ⟨beq_iff_eq, fun hp => by rw [exec_eq, acceptCommand_busy hp]⟩

/-- Settles O19: the edge of `IDLE` runs the decoded command, and `withFetchWord` offers one there. -/
theorem stepRunsTheDecodedCommand : Obligations.StepRunsTheDecodedCommand := by
  refine ⟨fun s i hp hr hv hd => ?runs, fun s nbits w i h => ⟨rfl, ?offered⟩⟩
  case runs =>
    rw [step_exec hp hr hv hd, exec_eq]
    rfl
  case offered =>
    obtain ⟨hrst, hvalid, hcmd⟩ := withFetchWord_inp s nbits w
    exact ⟨hrst, hvalid, hcmd ▸ decodeTableWord_eq_some h⟩

/-- Settles O21: the literal values of `State.reset`. -/
theorem resetValues : Obligations.ResetValues := ⟨rfl, rfl, rfl, rfl, rfl, rfl⟩

/-- Settles O36: a power of two exceeds `RESP_CAP` exactly when its exponent exceeds the logarithm. -/
theorem lenWidthHoldsEveryLength : Obligations.LenWidthHoldsEveryLength := fun _ _ hcap h1 =>
  ⟨_, lenW_of_respCap hcap, (le_two_pow_iff_log2_lt h1).mpr le_rfl, fun _ => (le_two_pow_iff_log2_lt h1).mp⟩

/-- Settles O37: a written buffer below `len` is the sequence received, whose view is that of its bytes. -/
theorem responseFieldView : Obligations.ResponseFieldView := by
  refine ⟨viewBytes_fields, fun _ => viewBytes_of_short, fun s hp hw => ?complete, fun s hp => if_neg hp⟩
  have hview : s.responseView = viewBytes s.received := if_pos hp
  have hlen : s.received.length = s.len := received_length hw
  refine ⟨fun h => hview.trans (viewBytes_of_short (hlen.trans_lt h)), fun h => ?long⟩
  obtain ⟨n, hn⟩ := Nat.exists_eq_add_of_le' h
  obtain ⟨v, hv, hslave, hfunction, hlength, hpayload, hlow, hhigh⟩ := viewBytes_of_long (hlen.trans hn)
  have hread {k : Nat} (hk : k < n + 4) : Memory.read s.buf k = s.received[k]? :=
    (received_getElem? hw (hn ▸ hk)).symm
  rw [hn]
  refine ⟨v, hview.trans hv, (hread (by simp)).trans hslave, (hread (by simp)).trans hfunction, hlength,
    fun k hk => ?_, (hread (by simp)).trans hlow, (hread (by simp)).trans hhigh⟩
  rw [Nat.add_comm 2 k]
  exact (hread (Nat.add_lt_add hk (by decide))).trans (hpayload k hk)

/-- Settles O49: the port shows the written byte at the address its wires carry. -/
theorem bufferReadSeesTheAddressWires : Obligations.BufferReadSeesTheAddressWires := by
  intro s w b hw ha hb
  change s.rdDataAt s.sampledRdAddr = b
  rw [sampledRdAddr_of_lenW hw, rdDataAt_of_written ha hb]

end Sys2Proof.Proofs
end

section
/-! PROOFS. The invariant (R10, R14, R37, R85, R86, R89): each update of the state that a step is made of keeps it, so
every step does, and every run; and under it the one fault of the model is never reached (R100). -/

-- The proofs are elaborated in order, as in the part on the descriptor, the CRC generator and the frame encoder.
set_option deprecated.oldSectionVars true

namespace Sys2Proof.Machine

/-! ### What the invariant says of each state of the sequencer -/

/-- While the frame is sent: the CRC register belongs to the body bytes sent, and nothing is received (R67, R82). -/
def SendOk (s : State) : Prop := s.txCnt.toNat ≤ 7 ∧ s.len = 0 ∧ SendCrc s

/-- While the response is read: the CRC register belongs to the bytes received and was never 0 (R37, R86). -/
def ReadOk (s : State) : Prop := s.txCnt = 8 ∧ ReadCrc s ∧ s.crc ≠ 0 ∧ NoEarlierZero s

theorem phaseOk_iff_of_phase {s : State} {p : Phase} (hp : s.phase = p) : PhaseOk s ↔ PhaseOk { s with phase := p } := by
  rw [← hp]

theorem phaseOk_idle {s : State} (hp : s.phase = .idle) : PhaseOk s ↔ s.len = 0 ∧ s.crc = crcInit :=
  phaseOk_iff_of_phase hp

theorem phaseOk_sent {s : State} (hp : s.phase = .sent) : PhaseOk s ↔ SendOk s := phaseOk_iff_of_phase hp

theorem phaseOk_reading {s : State} (hp : s.phase = .reading) : PhaseOk s ↔ ReadOk s := phaseOk_iff_of_phase hp

theorem phaseOk_complete {s : State} (hp : s.phase = .complete) :
    PhaseOk s ↔ s.txCnt = 8 ∧ ReadCrc s ∧ s.crc = 0 ∧ 2 ≤ s.len ∧ NoEarlierZero s :=
  phaseOk_iff_of_phase hp

theorem readOk_and_iff {s : State} {p : Prop} :
    ReadOk s ∧ p ↔ s.txCnt = 8 ∧ ReadCrc s ∧ s.crc ≠ 0 ∧ NoEarlierZero s ∧ p := by
  constructor
  · rintro ⟨⟨hcnt, hcrc, hne, hzero⟩, hp⟩
    exact ⟨hcnt, hcrc, hne, hzero, hp⟩
  · rintro ⟨hcnt, hcrc, hne, hzero, hp⟩
    exact ⟨⟨hcnt, hcrc, hne, hzero⟩, hp⟩

/-- Raising an outcome leaves what the sequencer was doing as it was (R104). -/
theorem phaseOk_raise_encError {s : State} : PhaseOk (raise .encError s) ↔ s.len = 0 ∧ s.crc = crcInit := Iff.rfl

theorem phaseOk_raise_connError {s : State} : PhaseOk (raise .connError s) ↔ SendOk s ∨ ReadOk s := Iff.rfl

theorem phaseOk_raise_timeout {s : State} : PhaseOk (raise .timeout s) ↔ ReadOk s ∧ s.timeoutR < s.elapsed :=
  readOk_and_iff.symm

theorem phaseOk_raise_overflow {s : State} :
    PhaseOk (raise .overflow s) ↔ ReadOk s ∧ s.params.respCap = some s.len :=
  readOk_and_iff.symm

/-! ### The updates that leave the buffer alone -/

/-- The tick counter stays within its width and never falls (R16, R83). -/
theorem countTick_elapsed_le {s : State} (tick : Bool) (h : s.elapsed ≤ elapsedMax s.params) :
    s.elapsed ≤ (countTick tick s).elapsed ∧ (countTick tick s).elapsed ≤ elapsedMax s.params := by
  rw [countTick_elapsed]
  split_ifs with hlt
  · obtain ⟨-, hlt⟩ : tick = true ∧ s.elapsed < elapsedMax s.params := by simpa using hlt
    exact ⟨Nat.le_succ _, hlt⟩
  · exact ⟨le_rfl, h⟩

/-- Of the clauses of the states only that of `TIMEOUT` speaks of `elapsed`, and it survives a tick. -/
theorem phaseOk_of_elapsed_le {s : State} {e : Nat} (h : PhaseOk s) (he : s.elapsed ≤ e) :
    PhaseOk { s with elapsed := e } := by
  unfold PhaseOk at h ⊢
  cases hp : s.phase <;> simp only [hp] at h ⊢
  case timeout =>
    obtain ⟨hcnt, hcrc, hne, hzero, hlt⟩ := h
    exact ⟨hcnt, hcrc, hne, hzero, hlt.trans_le he⟩
  all_goals exact h

theorem inv_countTick {s : State} (tick : Bool) (h : Inv s) : Inv (countTick tick s) := by
  obtain ⟨hle, hmax⟩ := countTick_elapsed_le tick h.widths.elapsed
  rw [countTick_elapsedAfter] at hle hmax
  rw [countTick_eq]
  exact ⟨h.params, ⟨h.widths.len, hmax, h.widths.timeout, h.widths.txCnt⟩,
    ⟨h.buffer.canonical, h.buffer.inside, h.buffer.written⟩, phaseOk_of_elapsed_le h.phase hle⟩

theorem inv_advance {s : State} (h : Inv s) : Inv s.advance :=
  ⟨h.params, ⟨h.widths.len, h.widths.elapsed, h.widths.timeout, h.widths.txCnt⟩,
    ⟨h.buffer.canonical, h.buffer.inside, h.buffer.written⟩, h.phase⟩

theorem inv_raise {s : State} (o : ErrorOutcome) (h : Inv s) (hp : PhaseOk (raise o s)) : Inv (raise o s) :=
  ⟨h.params, ⟨h.widths.len, h.widths.elapsed, h.widths.timeout, h.widths.txCnt⟩,
    ⟨h.buffer.canonical, h.buffer.inside, h.buffer.written⟩, hp⟩

/-- A buffer of which nothing counts as received has only to be canonical and within its indices. -/
theorem bufferOk_of_len_zero {s t : State} (h : BufferOk s) (hb : t.buf = s.buf) (hparams : t.params = s.params)
    (hl : t.len = 0) : BufferOk t :=
  ⟨hb ▸ h.canonical, hb ▸ hparams ▸ h.inside, fun a ha => absurd (hl ▸ ha) (Nat.not_lt_zero a)⟩

theorem inv_resetEdge {s : State} (h : Inv s) : Inv (resetEdge s) :=
  ⟨h.params, ⟨fun _ _ => Nat.zero_le _, Nat.zero_le _, Nat.two_pow_pos _, Nat.zero_le _⟩,
    bufferOk_of_len_zero h.buffer rfl rfl rfl, (phaseOk_idle rfl).mpr ⟨rfl, rfl⟩⟩

theorem inv_returnToIdle {s : State} (h : Inv s) : Inv (returnToIdle s) :=
  ⟨h.params, ⟨fun _ _ => Nat.zero_le _, h.widths.elapsed, h.widths.timeout, h.widths.txCnt⟩,
    bufferOk_of_len_zero h.buffer rfl rfl rfl, (phaseOk_idle rfl).mpr ⟨rfl, rfl⟩⟩

theorem sendCrc_startCommand (B : Body) (s : State) : SendCrc (startCommand B s) := rfl

theorem inv_startCommand {s : State} (B : Body) (h : Inv s) : Inv (startCommand B s) :=
  ⟨h.params, ⟨fun _ _ => Nat.zero_le _, Nat.zero_le _, Nat.mod_lt _ (Nat.two_pow_pos _), Nat.zero_le _⟩,
    bufferOk_of_len_zero h.buffer rfl rfl rfl,
    (phaseOk_sent rfl).mpr ⟨Nat.zero_le _, rfl, sendCrc_startCommand B s⟩⟩

/-! ### The byte the link takes (R82) -/

/-- From the sixth byte on, the body is sent. -/
theorem take_bytes {B : Body} {k : Nat} (h : 6 ≤ k) : B.bytes.take k = B.bytes := List.take_of_length_le h

theorem sendCrc_of_body_sent {s : State} (h6 : 6 ≤ s.txCnt.toNat) : SendCrc s ↔ s.crc = crcCompute s.body.bytes := by
  rw [SendCrc, take_bytes h6]

theorem toNat_add_one {c : BitVec 4} (h : c.toNat ≤ 7) : (c + 1).toNat = c.toNat + 1 := by
  rw [BitVec.toNat_add]
  exact Nat.mod_eq_of_lt (Nat.lt_of_le_of_lt (Nat.succ_le_succ h) (by decide))

/-- Before the eighth byte, a byte taken leaves the register the CRC of the body bytes sent (R67). -/
theorem sendCrc_takeTxByte {s : State} (h6 : s.txCnt.toNat ≤ 6) (h : SendCrc s) : SendCrc (takeTxByte s) := by
  have hcnt : (takeTxByte s).txCnt.toNat = s.txCnt.toNat + 1 := toNat_add_one (Nat.le_succ_of_le h6)
  rcases Nat.lt_or_eq_of_le h6 with hlt | heq
  · obtain ⟨b, hb⟩ := byte?_eq_some.mpr hlt
    rw [SendCrc, hcnt, takeTxByte_body, takeTxByte_crc_body hb, crcStep_sent hb h]
  · have hlow : s.txCnt = 6 := BitVec.eq_of_toNat_eq heq
    rw [sendCrc_of_body_sent (hcnt ▸ Nat.le_succ_of_le heq.ge), takeTxByte_body, takeTxByte_crc_low hlow]
    exact (sendCrc_of_body_sent heq.ge).mp h

/-- The eighth byte taken leaves the register and the buffer as reading begins with them (R82). -/
theorem readOk_of_start {s : State} (hcnt : s.txCnt = 8) (hl : s.len = 0) (hc : s.crc = crcInit) : ReadOk s := by
  refine ⟨hcnt, ?_, ?_, fun n _ hn => absurd (hl ▸ hn) (Nat.not_lt_zero n)⟩
  · rw [ReadCrc, received_len_zero hl, hc, crcCompute_nil]
  · rw [hc]; decide

/-- Before the eighth byte the block stays in `SENT` (R82). -/
theorem takeTxByte_stays_sent {s : State} (hp : s.phase = .sent) (h7 : s.txCnt ≠ 7) : (takeTxByte s).phase = .sent := by
  rw [takeTxByte_phase, if_neg h7, hp]

theorem phaseOk_takeTxByte {s : State} (hp : s.phase = .sent) (h : SendOk s) : PhaseOk (takeTxByte s) := by
  obtain ⟨h7, hl, hcrc⟩ := h
  by_cases heq : s.txCnt = 7
  · exact (phaseOk_reading (by simp [heq])).mpr
      (readOk_of_start (by simp [heq]) (by simpa using hl) (takeTxByte_crc_high heq))
  · have h6 : s.txCnt.toNat ≤ 6 := Nat.le_of_lt_succ (Nat.lt_of_le_of_ne h7 fun h => heq (BitVec.eq_of_toNat_eq h))
    refine (phaseOk_sent (takeTxByte_stays_sent hp heq)).mpr ⟨?_, by simpa using hl, sendCrc_takeTxByte h6 hcrc⟩
    rw [takeTxByte_txCnt, toNat_add_one h7]
    exact Nat.succ_le_succ h6

theorem inv_takeTxByte {s : State} (hp : s.phase = .sent) (h : Inv s) : Inv (takeTxByte s) := by
  have hsend : SendOk s := (phaseOk_sent hp).mp h.phase
  have ⟨h7, hlen, _⟩ := hsend
  have hl : (takeTxByte s).len = 0 := by rw [takeTxByte_len, hlen]
  refine ⟨by simpa using h.params,
    ⟨fun _ _ => hl.trans_le (Nat.zero_le _), by simpa using h.widths.elapsed, by simpa using h.widths.timeout, ?_⟩,
    bufferOk_of_len_zero h.buffer (by simp) (by simp) hl, phaseOk_takeTxByte hp hsend⟩
  rw [takeTxByte_txCnt, toNat_add_one h7]
  exact Nat.succ_le_succ h7

/-! ### The byte that is stored (R85) -/

/-- A byte stored with room in the buffer keeps `len` within it. -/
theorem len_lt_of_not_full {s : State} {cap : Nat} (hw : WidthsOk s) (hf : s.bufferFull = false)
    (hc : s.params.respCap = some cap) : s.len < cap :=
  Nat.lt_of_le_of_ne (hw.len cap hc) fun heq => Iff.mp bufferFull_eq_false hf (heq ▸ hc)

theorem bufferOk_storeRxByte {s : State} (b : Byte) (h : BufferOk s) (hi : indexExists s.params s.len = true) :
    BufferOk (storeRxByte b s) := by
  refine ⟨write_wf _ _ _ h.canonical, fun a ha => ?inside, fun a ha => ?written⟩
  case inside =>
    have hne : a ≠ s.len := by
      rintro rfl
      simp [hi] at ha
    exact (read_write_other s.buf b hne).trans (h.inside a ha)
  case written =>
    rw [storeRxByte_buf, read_write]
    split_ifs with heq
    · exact Option.some_ne_none b
    · exact h.written a (Nat.lt_of_le_of_ne (Nat.le_of_lt_succ ha) heq)

theorem received_storeRxByte (b : Byte) (s : State) : (storeRxByte b s).received = s.received ++ [b] :=
  received_store b s _ rfl rfl

theorem readCrc_storeRxByte {s : State} (b : Byte) (h : ReadCrc s) : ReadCrc (storeRxByte b s) := by
  rw [ReadCrc, received_storeRxByte, crcCompute_append_one, ← h, storeRxByte_crc]

/-- With one byte more, the proper initial parts are the earlier ones and the sequence before, whose CRC the register
showed. -/
theorem noEarlierZero_storeRxByte {s : State} (b : Byte) (hb : BufferOk s) (h : ReadOk s) :
    NoEarlierZero (storeRxByte b s) := by
  obtain ⟨-, hcrc, hne, hzero⟩ := h
  have hlen : s.received.length = s.len := received_length hb.written
  intro n hpos hn
  have hle : n ≤ s.len := Nat.le_of_lt_succ hn
  rw [received_storeRxByte, List.take_append_of_le_length (hlen ▸ hle)]
  rcases Nat.lt_or_eq_of_le hle with hlt | rfl
  · exact hzero n hpos hlt
  · rw [List.take_of_length_le hlen.le, ← hcrc]
    exact hne

/-- A zero CRC completes at least two bytes: one byte never brings the register to 0 (R68, R86). -/
theorem two_le_len_of_zero {s : State} {b : Byte} (hcrc : ReadCrc s) (h : crcStep s.crc b = 0) : 2 ≤ s.len + 1 := by
  rcases Nat.eq_zero_or_pos s.len with hl | hpos
  · rw [hcrc, received_len_zero hl, crcCompute_nil] at h
    exact absurd h (crcStep_crcInit_ne_zero b)
  · exact Nat.succ_le_succ hpos

theorem phaseOk_storeRxByte {s : State} (b : Byte) (hp : s.phase = .reading) (hb : BufferOk s) (h : ReadOk s) :
    PhaseOk (storeRxByte b s) := by
  have hzero := noEarlierZero_storeRxByte b hb h
  obtain ⟨hcnt, hcrc, -, -⟩ := h
  have hcrc' := readCrc_storeRxByte b hcrc
  by_cases h0 : crcStep s.crc b = 0
  · exact (phaseOk_complete (by simp [h0])).mpr ⟨hcnt, hcrc', h0, two_le_len_of_zero hcrc h0, hzero⟩
  · exact (phaseOk_reading (by rw [storeRxByte_phase, if_neg h0, hp])).mpr ⟨hcnt, hcrc', h0, hzero⟩

theorem inv_storeRxByte {s : State} (b : Byte) (hp : s.phase = .reading) (hf : s.bufferFull = false)
    (hi : indexExists s.params s.len = true) (h : Inv s) : Inv (storeRxByte b s) :=
  ⟨h.params, ⟨fun _ hc => len_lt_of_not_full h.widths hf hc, h.widths.elapsed, h.widths.timeout, h.widths.txCnt⟩,
    bufferOk_storeRxByte b h.buffer hi,
    phaseOk_storeRxByte b hp h.buffer ((phaseOk_reading hp).mp h.phase)⟩

/-! ### Every step and every run -/

theorem inv_stepCase {i : Inputs} {s u : State} (h : Inv s) (hu : StepCase i s u) : Inv u := by
  cases hu with
  | reset => exact inv_resetEdge h
  | idleHold | terminalHold => exact h
  | idleStart B => exact inv_startCommand B h
  | idleInvalid _ hp => exact inv_raise _ h (phaseOk_raise_encError.mpr ((phaseOk_idle hp).mp h.phase))
  | sentError _ hp =>
    exact inv_countTick _ (inv_raise _ h (phaseOk_raise_connError.mpr (.inl ((phaseOk_sent hp).mp h.phase))))
  | sentTake _ hp => exact inv_countTick _ (inv_takeTxByte hp h)
  | sentWait | readWait => exact inv_countTick _ h
  | readTimeout _ hp hx =>
    exact inv_countTick _
      (inv_raise _ h (phaseOk_raise_timeout.mpr ⟨(phaseOk_reading hp).mp h.phase, Iff.mp expired_eq_true hx⟩))
  | readError _ hp =>
    exact inv_countTick _ (inv_raise _ h (phaseOk_raise_connError.mpr (.inr ((phaseOk_reading hp).mp h.phase))))
  | readOverflow _ hp _ _ _ hf =>
    exact inv_countTick _
      (inv_raise _ h (phaseOk_raise_overflow.mpr ⟨(phaseOk_reading hp).mp h.phase, Iff.mp bufferFull_eq_true hf⟩))
  | readStore _ hp _ _ _ hf hi => exact inv_countTick _ (inv_storeRxByte _ hp hf hi h)
  | terminalAck => exact inv_returnToIdle h

theorem inv_step {s t : State} (h : Inv s) (hs : step s = .next t) : Inv t := by
  obtain ⟨u, hu, rfl⟩ := step_cases hs
  exact inv_advance (inv_stepCase h hu)

/-- The fault of log 8 needs a `len` that is not `RESP_CAP` and yet no index of the buffer. -/
theorem step_next_of_inv {s : State} (h : Inv s) : ∃ t, step s = .next t := by
  refine (step_stops s).resolve_right ?_
  rintro ⟨-, -, hf, hi⟩
  simp [indexExists_of_room fun cap hc => len_lt_of_not_full h.widths hf hc] at hi

theorem run_succ {n : Nat} {s t : State} (hs : step s = .next t) : run (n + 1) s = run n t := by
  simp only [run, hs]

theorem inv_run (n : Nat) {s : State} (h : Inv s) : ∃ t, run n s = .next t ∧ Inv t := by
  induction n generalizing s with
  | zero => exact ⟨s, rfl, h⟩
  | succ n ih =>
    obtain ⟨v, hv⟩ := step_next_of_inv h
    rw [run_succ hv]
    exact ih (inv_step h hv)

theorem inv_reset : Inv State.reset :=
  ⟨⟨by decide, fun _ hc => Option.some.inj hc ▸ by decide⟩,
    ⟨fun _ _ => Nat.zero_le _, Nat.zero_le _, Nat.two_pow_pos _, Nat.zero_le _⟩,
    ⟨reset_buf_wf, fun a _ => reset_buf_read a, fun a ha => absurd ha (Nat.not_lt_zero a)⟩,
    (phaseOk_idle rfl).mpr ⟨rfl, rfl⟩⟩

/-- A state is entered as `TIMEOUT` only past the deadline (R87), and as `OVERFLOW` only with a full buffer (R89). -/
theorem stepCase_enters_outcome {i : Inputs} {s u : State} (h : StepCase i s u) (hne : u.phase ≠ s.phase) :
    (u.phase = .timeout → s.timeoutR < s.elapsed) ∧ (u.phase = .overflow → s.params.respCap = some s.len) := by
  cases h with
  | readTimeout _ _ hx => simp [ErrorOutcome.phase, Iff.mp expired_eq_true hx]
  | readOverflow _ _ _ _ _ hf => simp [ErrorOutcome.phase, Iff.mp bufferFull_eq_true hf]
  | idleHold | terminalHold => exact absurd rfl hne
  | sentWait | readWait => exact absurd (countTick_phase ..) hne
  | sentTake _ hp => rw [countTick_phase, takeTxByte_phase, hp]; split_ifs <;> simp
  | readStore _ hp => rw [countTick_phase, storeRxByte_phase, hp]; split_ifs <;> simp
  | sentError | readError | idleInvalid => simp [ErrorOutcome.phase]
  | reset | idleStart | terminalAck => simp

end Sys2Proof.Machine

namespace Sys2Proof.Proofs

open Sys2Proof.Machine

/-- Settles O39, case by case of the step: each is made of updates that keep the invariant. -/
theorem everyStepKeepsInvariant : Obligations.EveryStepKeepsInvariant := fun _ _ => inv_step

/-- Settles O40: the one fault is out of the invariant's reach. -/
theorem goodStatesHaveANextState : Obligations.GoodStatesHaveANextState := fun _ => step_next_of_inv

/-- Settles O41, by induction on the number of edges. -/
theorem goodStatesRunSafely : Obligations.GoodStatesRunSafely := fun n _ => inv_run n

/-- Settles O38: nothing is received, and the counters are 0. -/
theorem resetMeetsInvariant : Obligations.ResetMeetsInvariant := inv_reset

/-- Settles O42: an infinite buffer is never full. -/
theorem infiniteBufferNeverOverflows : Obligations.InfiniteBufferNeverOverflows := by
  intro s t hinf hs h ht
  obtain ⟨u, hu, rfl⟩ := step_cases h
  have hne : u.phase ≠ s.phase := fun heq => hs (heq.symm.trans ht)
  obtain ⟨-, hfull⟩ := stepCase_enters_outcome hu hne
  simp [hinf] at hfull
  exact hfull ht

end Sys2Proof.Proofs
end

section
/-! PROOFS. Rules over every state: who writes each register at an edge (R67, R109), who writes the buffer (R34, R85),
and which inputs an edge reads (R102). -/

-- By now the tests of the model are mostly through the kernel: each proof of this part is elaborated and checked before
-- the next one, which keeps the memory of the check small.
set_option Elab.async false

namespace Sys2Proof.Machine

/-! ### The two handshakes (R34) -/

theorem txHandshake_iff {s : State} :
    s.txHandshake = true ↔ s.inp.rst = false ∧ s.phase = .sent ∧ s.inp.txReady = true ∧ s.inp.linkErr = false := by
  simp [State.txHandshake, State.outputs, and_assoc]

theorem rxHandshake_iff {s : State} :
    s.rxHandshake = true ↔ s.inp.rst = false ∧ s.phase = .reading ∧ s.elapsed ≤ s.timeoutR ∧
      s.inp.linkErr = false ∧ s.inp.rxValid = true := by
  simp [State.rxHandshake, rxReady_eq, and_assoc]

/-- The byte read at the edge is stored: there is an RX handshake, with room in the buffer (R85, R89). -/
def State.Stores (s : State) : Prop := s.rxHandshake = true ∧ s.params.respCap ≠ some s.len

@[simp] theorem terminal_idle : Phase.idle.terminal = false := rfl
@[simp] theorem terminal_sent : Phase.sent.terminal = false := rfl
@[simp] theorem terminal_reading : Phase.reading.terminal = false := rfl

theorem txHandshake_eq_false {s : State}
    (h : s.inp.rst = true ∨ s.phase ≠ .sent ∨ s.inp.linkErr = true ∨ s.inp.txReady = false) :
    s.txHandshake = false := by
  refine Bool.eq_false_of_not_eq_true fun hs => ?_
  obtain ⟨hr, hp, ht, he⟩ := txHandshake_iff.mp hs
  simp [hr, hp, ht, he] at h

theorem rxHandshake_eq_false {s : State}
    (h : s.inp.rst = true ∨ s.phase ≠ .reading ∨ s.timeoutR < s.elapsed ∨ s.inp.linkErr = true ∨
      s.inp.rxValid = false) :
    s.rxHandshake = false := by
  refine Bool.eq_false_of_not_eq_true fun hs => ?_
  obtain ⟨hr, hp, hx, he, hv⟩ := rxHandshake_iff.mp hs
  simp [hr, hp, Nat.not_lt.mpr hx, he, hv] at h

/-- In `SENT` no byte is read, in `READING` none is taken, and in the other states neither stream moves. -/
theorem no_rxHandshake_of_sent {s : State} (hp : s.phase = .sent) : s.rxHandshake = false :=
  rxHandshake_eq_false (.inr (.inl (by rw [hp]; nofun)))

theorem no_txHandshake_of_reading {s : State} (hp : s.phase = .reading) : s.txHandshake = false :=
  txHandshake_eq_false (.inr (.inl (by rw [hp]; nofun)))

theorem no_handshake_of_inactive {s : State} (h : s.phase.active = false) :
    s.txHandshake = false ∧ s.rxHandshake = false := by
  obtain ⟨hsent, hreading⟩ : s.phase ≠ .sent ∧ s.phase ≠ .reading := by simpa [Phase.active] using h
  exact ⟨txHandshake_eq_false (.inr (.inl hsent)), rxHandshake_eq_false (.inr (.inl hreading))⟩

theorem active_eq_false_of_idle {p : Phase} (h : p = .idle) : p.active = false := Iff.mpr active_eq_false_iff (.inl h)

/-! ### The registers after an edge -/

/-- The whole of R67's rows for `SENT`; there is no body byte to fold at the counts from 8 on (log 17). -/
def State.crcAfterTx (s : State) : Crc :=
  if s.txCnt = 7 then crcInit else (s.body.bytes[s.txCnt.toNat]?).elim s.crc (crcStep s.crc)

theorem crcAfterTx_eq (s : State) : s.crcAfterTx =
    if s.txCnt = 7 then crcInit else (s.body.bytes[s.txCnt.toNat]?).elim s.crc (crcStep s.crc) := rfl

theorem takeTxByte_eq (s : State) :
    takeTxByte s = { s with
      phase := if s.txCnt = 7 then .reading else s.phase, crc := s.crcAfterTx, txCnt := s.txCnt + 1 } := by
  rw [crcAfterTx_eq]
  by_cases h7 : s.txCnt = 7
  · rw [takeTxByte_of_crc_high h7, if_pos h7, if_pos h7, h7]
    rfl
  · rw [if_neg h7, if_neg h7]
    cases hb : s.body.bytes[s.txCnt.toNat]? with
    | some b => exact takeTxByte_of_body hb
    | none => simp only [takeTxByte, Body.byte?, hb, h7, if_false]; rfl

/-- The edges that set `len` to 0: reset, the acceptance of a valid command, and `res_ack` in a terminal state (R15). -/
def State.ClearsLen (s : State) : Prop :=
  s.inp.rst = true ∨ (s.phase = .idle ∧ s.inp.cmdValid = true ∧ encBody s.inp.cmd ≠ none) ∨
    (s.phase.terminal = true ∧ s.inp.resAck = true)

theorem clearsLen_iff {s : State} :
    s.ClearsLen ↔ s.inp.rst = true ∨ (s.phase = .idle ∧ s.inp.cmdValid = true ∧ encBody s.inp.cmd ≠ none) ∨
      (s.phase.terminal = true ∧ s.inp.resAck = true) := Iff.rfl

theorem not_clearsLen_of_active {s : State} (hr : s.inp.rst = false) (ha : s.phase.active = true) : ¬ s.ClearsLen := by
  rcases Iff.mp active_iff ha with hp | hp <;> simp [clearsLen_iff, hr, hp]

/-- What an edge makes of `len` and of the buffer: it stores a byte, or it keeps the buffer and keeps or clears `len`. -/
def StoreRule (s u : State) : Prop :=
  (s.Stores ∧ u.buf = Memory.write s.buf s.len s.inp.rxData ∧ u.len = s.len + 1) ∨
    (¬ s.Stores ∧ u.buf = s.buf ∧ (s.ClearsLen ∧ u.len = 0 ∨ ¬ s.ClearsLen ∧ u.len = s.len))

theorem storeRule_of_clear {s u : State} (hrx : s.rxHandshake = false) (hc : s.ClearsLen) (hb : u.buf = s.buf)
    (hl : u.len = 0) : StoreRule s u :=
  .inr ⟨fun ⟨hs, _⟩ => Bool.false_ne_true (hrx.symm.trans hs), hb, .inl ⟨hc, hl⟩⟩

theorem storeRule_of_hold {s u : State} (hrx : s.rxHandshake = false) (hc : ¬ s.ClearsLen) (hb : u.buf = s.buf)
    (hl : u.len = s.len) : StoreRule s u :=
  .inr ⟨fun ⟨hs, _⟩ => Bool.false_ne_true (hrx.symm.trans hs), hb, .inr ⟨hc, hl⟩⟩

/-- The buffer is written by the byte stored, at index `len`, and by nothing else (R15, R85). -/
theorem stepCase_storeRule {s u : State} (h : StepCase s.inp s u) : StoreRule s u := by
  cases h with
  | reset hr => exact storeRule_of_clear (rxHandshake_eq_false (.inl hr)) (.inl hr) rfl rfl
  | idleHold hr hp hv =>
    have ⟨_, hrx⟩ := no_handshake_of_inactive (active_eq_false_of_idle hp)
    exact storeRule_of_hold hrx (by simp [clearsLen_iff, hr, hp, hv]) rfl rfl
  | idleStart B _ hp hv hB =>
    have ⟨_, hrx⟩ := no_handshake_of_inactive (active_eq_false_of_idle hp)
    exact storeRule_of_clear hrx (.inr (.inl ⟨hp, hv, by rw [hB]; nofun⟩)) rfl rfl
  | idleInvalid hr hp hv hB =>
    have ⟨_, hrx⟩ := no_handshake_of_inactive (active_eq_false_of_idle hp)
    exact storeRule_of_hold hrx (by simp [clearsLen_iff, hr, hp, hB]) rfl rfl
  | sentError hr hp | sentWait hr hp =>
    exact storeRule_of_hold (no_rxHandshake_of_sent hp) (not_clearsLen_of_active hr (Iff.mpr active_iff (.inl hp)))
      (countTick_buf ..) (countTick_len ..)
  | sentTake hr hp =>
    exact storeRule_of_hold (no_rxHandshake_of_sent hp) (not_clearsLen_of_active hr (Iff.mpr active_iff (.inl hp)))
      ((countTick_buf ..).trans (takeTxByte_buf s)) ((countTick_len ..).trans (takeTxByte_len s))
  | readTimeout hr hp hx =>
    exact storeRule_of_hold (rxHandshake_eq_false (.inr (.inr (.inl (Iff.mp expired_eq_true hx)))))
      (not_clearsLen_of_active hr (Iff.mpr active_iff (.inr hp))) (countTick_buf ..) (countTick_len ..)
  | readError hr hp _ he =>
    exact storeRule_of_hold (rxHandshake_eq_false (.inr (.inr (.inr (.inl he)))))
      (not_clearsLen_of_active hr (Iff.mpr active_iff (.inr hp))) (countTick_buf ..) (countTick_len ..)
  | readWait hr hp _ _ hv =>
    exact storeRule_of_hold (rxHandshake_eq_false (.inr (.inr (.inr (.inr hv)))))
      (not_clearsLen_of_active hr (Iff.mpr active_iff (.inr hp))) (countTick_buf ..) (countTick_len ..)
  | readOverflow hr hp _ _ _ hf =>
    exact .inr ⟨fun ⟨_, hroom⟩ => hroom (Iff.mp bufferFull_eq_true hf), countTick_buf ..,
      .inr ⟨not_clearsLen_of_active hr (Iff.mpr active_iff (.inr hp)), countTick_len ..⟩⟩
  | readStore hr hp hx he hv hf =>
    have hrx : s.rxHandshake = true := rxHandshake_iff.mpr ⟨hr, hp, Iff.mp expired_eq_false hx, he, hv⟩
    exact .inl ⟨⟨hrx, Iff.mp bufferFull_eq_false hf⟩, countTick_buf .., countTick_len ..⟩
  | terminalHold hr hp ha =>
    have ⟨_, hrx⟩ := no_handshake_of_inactive (active_eq_false_of_terminal hp)
    exact storeRule_of_hold hrx (by simp [clearsLen_iff, hr, ha, ne_idle_of_terminal hp]) rfl rfl
  | terminalAck hr hp ha =>
    have ⟨_, hrx⟩ := no_handshake_of_inactive (active_eq_false_of_terminal hp)
    exact storeRule_of_clear hrx (.inr (.inr ⟨hp, ha⟩)) rfl rfl

/-- Only acceptance and reset write `body` and `timeout_r`, and without them `tx_cnt` counts the bytes taken (R13, R14,
R109). -/
theorem stepCase_command_held {s u : State} (h : StepCase s.inp s u) (hr : s.inp.rst = false)
    (hno : s.phase ≠ .idle ∨ s.inp.cmdValid = false ∨ encBody s.inp.cmd = none) :
    u.body = s.body ∧ u.timeoutR = s.timeoutR ∧ u.txCnt = if s.txHandshake = true then s.txCnt + 1 else s.txCnt := by
  cases h with
  | reset hr' => cases hr.symm.trans hr'
  | idleStart _ _ hp hv hB => simp [hp, hv, hB] at hno
  | sentTake _ hp he ht =>
    rw [if_pos (txHandshake_iff.mpr ⟨hr, hp, ht, he⟩), countTick_body, countTick_timeoutR, countTick_txCnt]
    exact ⟨takeTxByte_body s, takeTxByte_timeoutR s, takeTxByte_txCnt s⟩
  | sentError _ _ he =>
    rw [txHandshake_eq_false (.inr (.inr (.inl he)))]
    exact ⟨countTick_body .., countTick_timeoutR .., countTick_txCnt ..⟩
  | sentWait _ _ _ ht =>
    rw [txHandshake_eq_false (.inr (.inr (.inr ht)))]
    exact ⟨countTick_body .., countTick_timeoutR .., countTick_txCnt ..⟩
  | readTimeout _ hp | readError _ hp | readOverflow _ hp | readStore _ hp | readWait _ hp =>
    rw [no_txHandshake_of_reading hp]
    exact ⟨countTick_body .., countTick_timeoutR .., countTick_txCnt ..⟩
  | idleHold _ hp | idleInvalid _ hp =>
    rw [(no_handshake_of_inactive (active_eq_false_of_idle hp)).1]
    exact ⟨rfl, rfl, rfl⟩
  | terminalHold _ hp | terminalAck _ hp =>
    rw [(no_handshake_of_inactive (active_eq_false_of_terminal hp)).1]
    exact ⟨rfl, rfl, rfl⟩

/-! ### The CRC register after an edge (R67) -/

theorem stepCase_crc_idle {i : Inputs} {s u : State} (h : StepCase i s u) (hr : i.rst = false) (hp : s.phase = .idle) :
    u.crc = if i.cmdValid = true ∧ encBody i.cmd ≠ none then 0xFFFF else s.crc := by
  obtain rfl := Host.Outcome.next.inj ((edge_idle hr hp).symm.trans (edge_of_stepCase h))
  cases i.cmdValid
  · simp
  · cases encBody i.cmd
    · simp [acceptCommand_invalid hp]
    · simp [acceptCommand_valid hp, crcInit]

theorem stepCase_crc_sent {i : Inputs} {s u : State} (h : StepCase i s u) (hr : i.rst = false) (hp : s.phase = .sent) :
    u.crc = if i.linkErr = false ∧ i.txReady = true then s.crcAfterTx else s.crc := by
  obtain rfl := Host.Outcome.next.inj ((edge_sent hr hp).symm.trans (edge_of_stepCase h))
  rw [countTick_crc, sentEdge]
  cases i.linkErr <;> cases i.txReady <;> simp [takeTxByte_eq]

theorem stepCase_crc_terminal {i : Inputs} {s u : State} (h : StepCase i s u) (hr : i.rst = false)
    (hp : s.phase.terminal = true) : u.crc = if i.resAck = true then 0xFFFF else s.crc := by
  obtain rfl := Host.Outcome.next.inj ((edge_terminal hr hp).symm.trans (edge_of_stepCase h))
  cases i.resAck <;> rfl

/-- What an edge without reset makes of a state in `READING`, but for its tick, by the tests in the order of R84. -/
inductive ReadingCase (i : Inputs) (s : State) : State → Prop
  | timeout (hx : s.timeoutR < s.elapsed) : ReadingCase i s (raise .timeout s)
  | error (he : i.linkErr = true) : ReadingCase i s (raise .connError s)
  | overflow (hf : s.params.respCap = some s.len) : ReadingCase i s (raise .overflow s)
  | store (hx : s.elapsed ≤ s.timeoutR) (he : i.linkErr = false) (hv : i.rxValid = true)
      (hf : s.params.respCap ≠ some s.len) : ReadingCase i s (storeRxByte i.rxData s)
  | wait (hv : i.rxValid = false) : ReadingCase i s s

theorem reading_cases {i : Inputs} {s u : State} (h : StepCase i s u) (hr : i.rst = false) (hp : s.phase = .reading) :
    ∃ v, ReadingCase i s v ∧ u = countTick i.tickI v := by
  cases h with
  | reset hr' => cases hr.symm.trans hr'
  | readTimeout _ _ hx => exact ⟨_, .timeout (Iff.mp expired_eq_true hx), rfl⟩
  | readError _ _ _ he => exact ⟨_, .error he, rfl⟩
  | readOverflow _ _ _ _ _ hf => exact ⟨_, .overflow (Iff.mp bufferFull_eq_true hf), rfl⟩
  | readStore _ _ hx he hv hf =>
    exact ⟨_, .store (Iff.mp expired_eq_false hx) he hv (Iff.mp bufferFull_eq_false hf), rfl⟩
  | readWait _ _ _ _ hv => exact ⟨_, .wait hv, rfl⟩
  | idleHold _ hp' | idleStart _ _ hp' | idleInvalid _ hp' | sentError _ hp' | sentTake _ hp' | sentWait _ hp' =>
    cases hp.symm.trans hp'
  | terminalHold _ hp' | terminalAck _ hp' => rw [hp] at hp'; cases hp'

theorem stepCase_crc_reading {i : Inputs} {s u : State} (h : StepCase i s u) (hr : i.rst = false)
    (hp : s.phase = .reading) :
    u.crc = if s.elapsed ≤ s.timeoutR ∧ i.linkErr = false ∧ i.rxValid = true ∧ s.params.respCap ≠ some s.len
      then crcStep s.crc i.rxData else s.crc := by
  obtain ⟨v, hv, rfl⟩ := reading_cases h hr hp
  rw [countTick_crc]
  cases hv with
  | timeout hx => simp [Nat.not_le.mpr hx]
  | error he => simp [he]
  | overflow hf => simp [hf]
  | store hx he hv hf => exact (if_pos ⟨hx, he, hv, hf⟩).symm
  | wait hv => simp [hv]

/-! ### The inputs an edge reads (R102) -/

/-- `s` with the schedule `l` in place of its own. -/
def State.withStim (l : List Inputs) (s : State) : State := { s with stim := l }

theorem withStim_inp (i : Inputs) (l : List Inputs) (s : State) : (s.withStim (i :: l)).inp = i := inp_cons _ i l rfl

theorem withStim_sampledTimeout (i : Inputs) (l : List Inputs) (s : State) :
    (s.withStim (i :: l)).sampledTimeout = i.cmdTimeout % 2 ^ s.params.timerW := by
  rw [State.sampledTimeout, withStim_inp]
  rfl

theorem step_withStim_reset {i j : Inputs} (rest : List Inputs) (s : State) (hr : i.rst = true) (hij : i.rst = j.rst) :
    step (s.withStim (i :: rest)) = step (s.withStim (j :: rest)) := by
  rw [step, step, withStim_inp, withStim_inp, edge_reset _ hr, edge_reset _ (hij ▸ hr)]
  rfl

/-- In `IDLE` the command and, if it is offered, its timeout are read (R81). -/
theorem step_withStim_idle {i j : Inputs} (rest : List Inputs) {s : State} (hp : s.phase = .idle) (hr : i.rst = false)
    (hij : i.rst = j.rst) (hv : i.cmdValid = j.cmdValid)
    (hcmd : i.cmdValid = true → i.cmd = j.cmd ∧ i.cmdTimeout = j.cmdTimeout) :
    step (s.withStim (i :: rest)) = step (s.withStim (j :: rest)) := by
  have hp' (l : List Inputs) : (s.withStim l).phase = .idle := hp
  rw [step, step, withStim_inp, withStim_inp, edge_idle hr (hp' _), edge_idle (hij ▸ hr) (hp' _), ← hv]
  cases hvalid : i.cmdValid with
  | false => rfl
  | true =>
    obtain ⟨hd, htimeout⟩ := hcmd hvalid
    rw [if_pos rfl, if_pos rfl, ← hd]
    cases encBody i.cmd with
    | none => rw [acceptCommand_invalid (hp' _), acceptCommand_invalid (hp' _)]; rfl
    | some B =>
      rw [acceptCommand_valid (hp' _), acceptCommand_valid (hp' _), startCommand, startCommand, withStim_sampledTimeout,
        withStim_sampledTimeout, htimeout]
      rfl

/-- The sample that is past is not remembered, but for its tick. -/
theorem next_withStim_congr {i j : Inputs} (rest : List Inputs) (hk : i.tickI = j.tickI) (u : State) :
    (.next (countTick i.tickI (u.withStim (i :: rest))).advance : Host.Outcome State Fault Refusal) =
      .next (countTick j.tickI (u.withStim (j :: rest))).advance := by
  rw [hk, countTick_eq, countTick_eq]
  rfl

theorem takeTxByte_withStim (l : List Inputs) (s : State) : takeTxByte (s.withStim l) = (takeTxByte s).withStim l := by
  rw [takeTxByte_eq, takeTxByte_eq]
  rfl

/-- In `SENT` the link and the tick are read (R82). -/
theorem step_withStim_sent {i j : Inputs} (rest : List Inputs) {s : State} (hp : s.phase = .sent) (hr : i.rst = false)
    (hij : i.rst = j.rst) (he : i.linkErr = j.linkErr) (ht : i.txReady = j.txReady) (hk : i.tickI = j.tickI) :
    step (s.withStim (i :: rest)) = step (s.withStim (j :: rest)) := by
  have hp' (l : List Inputs) : (s.withStim l).phase = .sent := hp
  have hsame := next_withStim_congr rest hk
  rw [step, step, withStim_inp, withStim_inp, edge_sent hr (hp' _), edge_sent (hij ▸ hr) (hp' _), sentEdge, sentEdge,
    he, ht, takeTxByte_withStim, takeTxByte_withStim]
  split_ifs
  · exact hsame (raise .connError s)
  · exact hsame (takeTxByte s)
  · exact hsame s

/-- In `READING` the link, the peer's byte if there is one, and the tick are read (R84). -/
theorem step_withStim_reading {i j : Inputs} (rest : List Inputs) {s : State} (hp : s.phase = .reading)
    (hr : i.rst = false) (hij : i.rst = j.rst) (he : i.linkErr = j.linkErr) (hv : i.rxValid = j.rxValid)
    (hd : i.rxValid = true → i.rxData = j.rxData) (hk : i.tickI = j.tickI) :
    step (s.withStim (i :: rest)) = step (s.withStim (j :: rest)) := by
  have hp' (l : List Inputs) : (s.withStim l).phase = .reading := hp
  have hexpired (l : List Inputs) : (s.withStim l).expired = s.expired := rfl
  have hfull (l : List Inputs) : (s.withStim l).bufferFull = s.bufferFull := rfl
  have hindex (l : List Inputs) :
    indexExists (s.withStim l).params (s.withStim l).len = indexExists s.params s.len := rfl
  have hread (t : State) : readingEdge i t = readingEdge j t := by
    rw [readingEdge, readingEdge, he, ← hv]
    cases hvalid : i.rxValid with
    | false => rfl
    | true => rw [hd hvalid]
  have hsame := next_withStim_congr rest hk
  rw [step, step, withStim_inp, withStim_inp, edge_reading hr (hp' _), edge_reading (hij ▸ hr) (hp' _), hread]
  simp only [readingEdge, readRxByte, hexpired, hfull, hindex]
  split_ifs
  · exact hsame (raise .timeout s)
  · exact hsame (raise .connError s)
  · exact hsame (raise .overflow s)
  · exact hsame (storeRxByte j.rxData s)
  · rfl
  · exact hsame s

theorem step_withStim_terminal {i j : Inputs} (rest : List Inputs) {s : State} (hp : s.phase.terminal = true)
    (hr : i.rst = false) (hij : i.rst = j.rst) (ha : i.resAck = j.resAck) :
    step (s.withStim (i :: rest)) = step (s.withStim (j :: rest)) := by
  have hp' (l : List Inputs) : (s.withStim l).phase.terminal = true := hp
  rw [step, step, withStim_inp, withStim_inp, edge_terminal hr (hp' _), edge_terminal (hij ▸ hr) (hp' _), ha]
  cases j.resAck <;> rfl

end Sys2Proof.Machine

namespace Sys2Proof.Proofs

open Sys2Proof.Machine

/-- Settles O30, state by state. -/
theorem crcRegisterOperations : Obligations.CrcRegisterOperations := by
  intro s t h
  refine ⟨rfl, by simp [State.outputs, State.crcZero], ?_⟩
  by_cases hrst : s.inp.rst = true
  · obtain rfl := Host.Outcome.next.inj ((step_reset hrst).symm.trans h)
    exact (if_pos hrst).symm
  have hr : s.inp.rst = false := Bool.eq_false_of_not_eq_true hrst
  obtain ⟨u, hu, rfl⟩ := step_cases h
  rw [if_neg hrst, advance_crc]
  cases hp : s.phase
  case idle => exact stepCase_crc_idle hu hr hp
  case sent =>
    rw [stepCase_crc_sent hu hr hp, crcAfterTx_eq]
    cases s.body.bytes[s.txCnt.toNat]? <;> rfl
  case reading => exact stepCase_crc_reading hu hr hp
  all_goals exact stepCase_crc_terminal hu hr (hp ▸ rfl)

/-- Settles O32: one byte is written or none. -/
theorem bufferFrame : Obligations.BufferFrame := by
  intro s t h
  obtain ⟨u, hu, rfl⟩ := step_cases h
  rw [advance_buf]
  obtain ⟨⟨hrx, hroom⟩, hbuf, -⟩ | ⟨hno, hbuf, -⟩ := stepCase_storeRule hu <;> rw [hbuf]
  · refine ⟨fun a => ?_, write_wf _ _ _⟩
    simp only [read_write, hrx, hroom, ne_eq, not_false_eq_true, true_and]
  · exact ⟨fun a => (if_neg fun ⟨hrx, hroom, _⟩ => hno ⟨hrx, hroom⟩).symm, id⟩

/-- Settles O33: acceptance and reset each by their one next state, the other edges case by case. -/
theorem registerFrame : Obligations.RegisterFrame := by
  intro s t h
  refine ⟨?params, fun B hr hp hv hB => ?accepted, fun hr => ?reset, fun hr hno => ?other⟩
  case params =>
    obtain ⟨u, hu, rfl⟩ := step_cases h
    exact stepCase_params (u := u) hu
  case accepted =>
    obtain rfl := Host.Outcome.next.inj ((step_accept hp hr hv hB).symm.trans h)
    exact ⟨rfl, rfl, rfl, rfl⟩
  case reset =>
    obtain rfl := Host.Outcome.next.inj ((step_reset hr).symm.trans h)
    exact ⟨rfl, rfl, rfl, rfl⟩
  case other =>
    obtain ⟨u, hu, rfl⟩ := step_cases h
    obtain ⟨hbody, htimeout, hcnt⟩ := stepCase_command_held hu hr hno
    refine ⟨hbody, htimeout, hcnt, ?_⟩
    have hclears : s.ClearsLen → s.phase.terminal = true ∧ s.inp.resAck = true := by
      rintro (hr' | ⟨hp, hv, hB⟩ | hterminal)
      · cases hr.symm.trans hr'
      · simp [hp, hv, hB] at hno
      · exact hterminal
    obtain ⟨hs, -, hl⟩ | ⟨hs, -, ⟨hc, hl⟩ | ⟨hc, hl⟩⟩ := stepCase_storeRule hu
    · exact hl.trans (if_pos hs).symm
    · exact hl.trans ((if_neg hs).trans (if_pos (hclears hc))).symm
    · exact hl.trans ((if_neg hs).trans (if_neg fun ha => hc (.inr (.inr ha)))).symm

/-- Settles O34: the samples agree on all the edge reads, and the schedule is read nowhere else. -/
theorem ignoredInputsHaveNoEffect : Obligations.IgnoredInputsHaveNoEffect := by
  intro s i j rest hij
  have hreset (hr : i.rst = true) : step (s.withStim (i :: rest)) = step (s.withStim (j :: rest)) :=
    step_withStim_reset rest s hr hij
  by_cases hr : i.rst = true
  · exact ⟨hreset, fun _ _ _ => hreset hr, fun _ _ _ _ => hreset hr, fun _ _ _ _ _ => hreset hr,
      fun _ _ _ _ => hreset hr⟩
  · replace hr : i.rst = false := Bool.eq_false_of_not_eq_true hr
    exact ⟨hreset, fun hp => step_withStim_idle rest hp hr hij, fun hp => step_withStim_sent rest hp hr hij,
      fun hp => step_withStim_reading rest hp hr hij,
      fun hidle hsent hreading => step_withStim_terminal rest (terminal_of_ne hidle hsent hreading) hr hij⟩

end Sys2Proof.Proofs
end

section
/-! PROOFS. Runs: the bytes on the TX stream (R77, R82, R130), the bytes received and the CRC that completes a command
(R85, R86, R121), and the deadline from both sides (R83, R87, R127). -/

-- By now the tests of the model are mostly through the kernel: each proof of this part is elaborated and checked before
-- the next one, which keeps the memory of the check small.
set_option Elab.async false

namespace Sys2Proof.Machine

/-! ### Runs, one edge at a time -/

/-- The byte the link takes at the edge, if any (R34). -/
def State.txByte (s : State) : List Byte := if s.txHandshake then [s.outputs.txData] else []

/-- The byte read at the edge, if any (R34). -/
def State.rxByte (s : State) : List Byte := if s.rxHandshake then [s.inp.rxData] else []

theorem txTaken_succ {n : Nat} {s v : State} (hv : step s = .next v) : txTaken (n + 1) s = s.txByte ++ txTaken n v := by
  simp only [txTaken, hv]
  rfl

theorem txTaken_zero (s : State) : txTaken 0 s = [] := rfl

theorem rxTaken_succ {n : Nat} {s v : State} (hv : step s = .next v) : rxTaken (n + 1) s = s.rxByte ++ rxTaken n v := by
  simp only [rxTaken, hv]
  rfl

theorem ticksOver_succ {n : Nat} {s v : State} (hv : step s = .next v) :
    ticksOver (n + 1) s = (if s.inp.tickI then 1 else 0) + ticksOver n v := by
  simp only [ticksOver, hv]

/-- A run of at least one edge that ends in a state takes its first step to a state. -/
theorem step_of_run_succ {n : Nat} {s t : State} (h : run (n + 1) s = .next t) :
    ∃ v, step s = .next v ∧ run n v = .next t := by
  rcases step_stops s with ⟨v, hv⟩ | ⟨hf, -⟩
  · exact ⟨v, hv, run_succ hv ▸ h⟩
  · simp [run, hf] at h

/-- A property that holds now does not hold during a run whose first state lacks it. -/
theorem eq_zero_of_during {n : Nat} {s : State} {P : State → Prop} (h : During n s P) (hs : ¬ P s) : n = 0 := by
  by_contra hn
  exact hs (h 0 (Nat.pos_of_ne_zero hn) s rfl)

/-- What every step from a state with `P` keeps, a run through such states keeps. -/
theorem run_keeps {P Q : State → Prop} (hstep : ∀ s t, P s → Q s → step s = .next t → Q t) (n : Nat) {s t : State}
    (hs : Q s) (hd : During n s P) (h : run n s = .next t) : Q t := by
  induction n generalizing s with
  | zero =>
    obtain rfl := Host.Outcome.next.inj h
    exact hs
  | succ n ih =>
    obtain ⟨v, hv, hrun⟩ := step_of_run_succ h
    obtain ⟨hP, hd⟩ := during_succ hd hv
    exact ih (hstep s v hP hs hv) hd hrun

/-! ### The bytes of the frame (R77, R82) -/

/-- The bytes of the request frame that the link has not taken. -/
def State.unsent (s : State) : List Byte := (frameOf s.body).drop s.txCnt.toNat

/-- In `SENT` the port shows the byte of the frame at `tx_cnt`, the checksum from the register (R18, R77). -/
theorem frameOf_getElem?_txCnt {s : State} (hp : s.phase = .sent) (h : SendOk s) :
    (frameOf s.body)[s.txCnt.toNat]? = some s.txData := by
  obtain ⟨h7, -, hcrc⟩ := h
  rcases Nat.lt_trichotomy s.txCnt.toNat 6 with hlt | h6 | hgt
  · obtain ⟨b, hb⟩ := byte?_eq_some.mpr hlt
    rw [txData_of_body hp hb, frameOf, List.getElem?_append_left hlt]
    exact hb
  · replace h6 : s.txCnt = 6 := BitVec.eq_of_toNat_eq h6
    rw [txData_of_crc_low hp h6, (sendCrc_of_body_sent (by simp [h6])).mp hcrc, h6]
    rfl
  · replace h7 : s.txCnt = 7 := BitVec.eq_of_toNat_eq (Nat.le_antisymm h7 hgt)
    rw [txData_of_crc_high hp (by simp [h7]), (sendCrc_of_body_sent (by simp [h7])).mp hcrc, h7]
    rfl

theorem unsent_eq (s : State) : s.unsent = (frameOf s.body).drop s.txCnt.toNat := rfl

theorem unsent_takeTxByte {s : State} (hp : s.phase = .sent) (h : SendOk s) :
    s.txData :: (takeTxByte s).unsent = s.unsent := by
  have ⟨h7, _, _⟩ := h
  rw [unsent_eq, unsent_eq, takeTxByte_body, takeTxByte_txCnt, toNat_add_one h7,
    List.drop_eq_getElem?_toList_append (i := s.txCnt.toNat), frameOf_getElem?_txCnt hp h]
  rfl

/-- Nothing of the frame is unsent at a count of 8. -/
theorem unsent_of_all_taken {s : State} (h8 : s.txCnt = 8) : s.unsent = [] := by
  rw [unsent_eq, h8]
  rfl

/-- The frame is being sent. -/
def Sending (s : State) : Prop := s.phase = .sent ∧ SendOk s

/-- The frame is sent, and the block is ready for the first response byte (R82). -/
def FrameSent (s : State) : Prop := s.phase = .reading ∧ s.txCnt = 8 ∧ s.crc = 0xFFFF ∧ s.len = 0

theorem sending_or_frameSent_takeTxByte {s : State} (h : Sending s) :
    Sending (takeTxByte s) ∨ FrameSent (takeTxByte s) := by
  obtain ⟨hp, hok⟩ := h
  by_cases h7 : s.txCnt = 7
  · obtain ⟨-, hlen, -⟩ := hok
    rw [takeTxByte_of_crc_high h7]
    exact .inr ⟨rfl, rfl, rfl, hlen⟩
  · have hsent : (takeTxByte s).phase = .sent := takeTxByte_stays_sent hp h7
    exact .inl ⟨hsent, (phaseOk_sent hsent).mp (phaseOk_takeTxByte hp hok)⟩

/-- Neither predicate speaks of the counters of ticks and cycles. -/
theorem sending_countTick {tick : Bool} {s : State} : Sending (countTick tick s).advance ↔ Sending s := by
  rw [countTick_eq]
  rfl

theorem frameSent_countTick {tick : Bool} {s : State} : FrameSent (countTick tick s).advance ↔ FrameSent s := by
  rw [countTick_eq]
  rfl

theorem unsent_countTick (tick : Bool) (s : State) : (countTick tick s).advance.unsent = s.unsent := by
  rw [countTick_eq]
  rfl

theorem txByte_eq_nil {s : State} (h : s.txHandshake = false) : s.txByte = [] := if_neg (by rw [h]; nofun)

/-- A step with a TX handshake: the link takes the first unsent byte. -/
theorem step_take {s : State} (h : Sending s) (hr : s.inp.rst = false) (he : s.inp.linkErr = false)
    (ht : s.inp.txReady = true) :
    ∃ v, step s = .next v ∧ v.stim = s.stim.tail ∧ v.txCnt = s.txCnt + 1 ∧ s.txByte ++ v.unsent = s.unsent ∧
      (Sending v ∨ FrameSent v) := by
  have ⟨hp, hok⟩ := h
  have hbyte : s.txByte = [s.txData] := if_pos (txHandshake_iff.mpr ⟨hr, hp, ht, he⟩)
  refine ⟨_, step_of_stepCase (.sentTake hr hp he ht), ?stim, ?txCnt, ?bytes,
    (sending_or_frameSent_takeTxByte h).imp sending_countTick.mpr frameSent_countTick.mpr⟩
  case stim => rw [advance_stim, countTick_stim, takeTxByte_stim]
  case txCnt => rw [advance_txCnt, countTick_txCnt, takeTxByte_txCnt]
  case bytes => rw [hbyte, unsent_countTick, ← unsent_takeTxByte hp hok, List.singleton_append]

/-- A step from `SENT` stays there, or takes the last byte and comes to `READING`, or takes none and ends the write. -/
theorem sent_step_cases {s v : State} (h : Sending s) (hv : step s = .next v) :
    (Sending v ∧ s.txByte ++ v.unsent = s.unsent) ∨ (FrameSent v ∧ s.txByte = s.unsent) ∨
      (v.phase ≠ .sent ∧ v.phase ≠ .reading ∧ s.txByte = []) := by
  have ⟨hp, _⟩ := h
  cases hr : s.inp.rst with
  | true =>
    obtain rfl := Host.Outcome.next.inj ((step_of_stepCase (.reset hr)).symm.trans hv)
    exact .inr (.inr ⟨nofun, nofun, txByte_eq_nil (txHandshake_eq_false (.inl hr))⟩)
  | false =>
    cases he : s.inp.linkErr with
    | true =>
      obtain rfl := Host.Outcome.next.inj ((step_of_stepCase (.sentError hr hp he)).symm.trans hv)
      rw [advance_phase, countTick_phase]
      exact .inr (.inr ⟨nofun, nofun, txByte_eq_nil (txHandshake_eq_false (.inr (.inr (.inl he))))⟩)
    | false =>
      cases ht : s.inp.txReady with
      | true =>
        obtain ⟨w, hw, -, -, hbytes, hw'⟩ := step_take h hr he ht
        obtain rfl := Host.Outcome.next.inj (hw.symm.trans hv)
        refine hw'.imp (fun hsending => ⟨hsending, hbytes⟩) fun hsent => .inl ⟨hsent, ?_⟩
        obtain ⟨-, hcnt, -, -⟩ := hsent
        rw [← hbytes, unsent_of_all_taken hcnt, List.append_nil]
      | false =>
        obtain rfl := Host.Outcome.next.inj ((step_of_stepCase (.sentWait hr hp he ht)).symm.trans hv)
        refine .inl ⟨sending_countTick.mpr h, ?_⟩
        rw [txByte_eq_nil (txHandshake_eq_false (.inr (.inr (.inr ht)))), unsent_countTick, List.nil_append]

theorem step_next_of_sent {s : State} (hp : s.phase = .sent) : ∃ v, step s = .next v := by
  refine (step_stops s).resolve_right ?_
  rintro ⟨-, hreading, -⟩
  simp [hp] at hreading

/-- For as long as the block stays in `SENT` the bytes taken are the first of those unsent before, and all when
it comes to `READING`. -/
theorem txTaken_prefix_unsent (n : Nat) {s : State} (h : Sending s) (hd : During n s fun u => u.phase = .sent) :
    txTaken n s <+: s.unsent ∧ ∀ u, run n s = .next u → u.phase = .reading → txTaken n s = s.unsent := by
  induction n generalizing s with
  | zero =>
    have ⟨hp, _⟩ := h
    refine ⟨List.nil_prefix, fun u hu hreading => ?_⟩
    obtain rfl := Host.Outcome.next.inj hu
    rw [hp] at hreading
    cases hreading
  | succ n ih =>
    have ⟨hp, _⟩ := h
    obtain ⟨v, hv⟩ := step_next_of_sent hp
    obtain ⟨-, hd⟩ := during_succ hd hv
    rw [txTaken_succ hv, run_succ hv]
    rcases sent_step_cases h hv with ⟨hsending, hbytes⟩ | ⟨⟨hpv, -⟩, hbytes⟩ | ⟨hns, hnr, hbytes⟩
    · obtain ⟨hprefix, hall⟩ := ih hsending hd
      rw [← hbytes]
      exact ⟨(List.prefix_append_right_inj _).mpr hprefix,
        fun u hu hreading => congrArg (s.txByte ++ ·) (hall u hu hreading)⟩
    · obtain rfl := eq_zero_of_during hd (by rw [hpv]; nofun)
      rw [txTaken_zero, List.append_nil, hbytes]
      exact ⟨List.prefix_rfl, fun _ _ _ => rfl⟩
    · obtain rfl := eq_zero_of_during hd hns
      rw [txTaken_zero, List.append_nil, hbytes]
      refine ⟨List.nil_prefix, fun u hu hreading => absurd ?_ hnr⟩
      obtain rfl := Host.Outcome.next.inj hu
      exact hreading

/-- What acceptance leaves: the frame of the command, all of it unsent (R81). -/
theorem sending_startCommand (B : Body) (s : State) : Sending (startCommand B s).advance :=
  ⟨rfl, Nat.zero_le _, rfl, sendCrc_startCommand B s⟩

theorem unsent_startCommand (B : Body) (s : State) : (startCommand B s).advance.unsent = frameOf B := rfl

/-- The rest of the frame is sent in as many cycles as it has bytes, if the link takes every byte (R130). -/
theorem run_of_ready_link (l rest : List Inputs) {s : State} (h : Sending s ∨ FrameSent s)
    (hl : s.txCnt.toNat + l.length = 8) (hstim : s.stim = l ++ rest)
    (hready : ∀ i ∈ l, i.rst = false ∧ i.linkErr = false ∧ i.txReady = true) :
    ∃ t, run l.length s = .next t ∧ FrameSent t ∧ t.stim = rest ∧ txTaken l.length s = s.unsent := by
  induction l generalizing s with
  | nil =>
    have h8 : s.txCnt = 8 := BitVec.eq_of_toNat_eq hl
    have hsent : FrameSent s := h.resolve_left fun ⟨_, hle, _⟩ => absurd (h8 ▸ hle) (by decide)
    exact ⟨s, rfl, hsent, hstim, (unsent_of_all_taken h8).symm⟩
  | cons i l ih =>
    rw [List.length_cons] at hl
    have hle : s.txCnt.toNat ≤ 7 :=
      Nat.le_of_lt_succ (Nat.lt_of_lt_of_eq (Nat.lt_add_of_pos_right l.length.succ_pos) hl)
    have hsending : Sending s := h.resolve_right fun ⟨_, h8, _⟩ => absurd (h8 ▸ hle) (by decide)
    have hinp : s.inp = i := inp_cons s i (l ++ rest) hstim
    obtain ⟨hr, he, ht⟩ := hready i List.mem_cons_self
    obtain ⟨v, hv, hstimv, hcnt, hbytes, hnext⟩ := step_take hsending (hinp ▸ hr) (hinp ▸ he) (hinp ▸ ht)
    have hlv : v.txCnt.toNat + l.length = 8 := by
      rw [hcnt, toNat_add_one hle, Nat.add_assoc, Nat.add_comm 1]
      exact hl
    obtain ⟨t, hrun, hsent, hrest, htaken⟩ :=
      ih hnext hlv (by rw [hstimv, hstim]; rfl) fun j hj => hready j (List.mem_cons_of_mem i hj)
    exact ⟨t, (run_succ hv).trans hrun, hsent, hrest, by rw [List.length_cons, txTaken_succ hv, htaken, hbytes]⟩

/-! ### The bytes received (R85, R86) -/

theorem rxByte_eq_nil {s : State} (h : s.rxHandshake = false) : s.rxByte = [] := if_neg (by rw [h]; nofun)

theorem received_countTick (tick : Bool) (s : State) : (countTick tick s).received = s.received :=
  received_congr (countTick_len tick s) fun a _ => by rw [countTick_buf]

/-- The byte read at an edge of `READING`, if any, is received, unless the buffer overflows (R85). -/
theorem readingCase_received {s v : State} (h : ReadingCase s.inp s v) (hr : s.inp.rst = false)
    (hp : s.phase = .reading) (hfull : v.phase ≠ .overflow) : v.received = s.received ++ s.rxByte := by
  have hold (hrx : s.rxHandshake = false) : s.received = s.received ++ s.rxByte := by
    rw [rxByte_eq_nil hrx, List.append_nil]
  cases h with
  | timeout hx => exact hold (rxHandshake_eq_false (.inr (.inr (.inl hx))))
  | error he => exact hold (rxHandshake_eq_false (.inr (.inr (.inr (.inl he)))))
  | overflow => exact absurd rfl hfull
  | store hx he hv =>
    have hbyte : s.rxByte = [s.inp.rxData] := if_pos (rxHandshake_iff.mpr ⟨hr, hp, hx, he, hv⟩)
    rw [received_storeRxByte, hbyte]
  | wait hv => exact hold (rxHandshake_eq_false (.inr (.inr (.inr (.inr hv)))))

/-- From `READING` an edge without reset stays there or comes to a terminal state. -/
theorem readingCase_phase {i : Inputs} {s v : State} (h : ReadingCase i s v) (hp : s.phase = .reading) :
    v.phase = .reading ∨ v.phase.terminal = true := by
  cases h with
  | timeout | error | overflow => exact .inr rfl
  | store =>
    rw [storeRxByte_phase, hp]
    split_ifs
    · exact .inr rfl
    · exact .inl rfl
  | wait => exact .inl hp

theorem step_received {s t : State} (hp : s.phase = .reading) (h : step s = .next t) (hidle : t.phase ≠ .idle)
    (hfull : t.phase ≠ .overflow) : t.received = s.received ++ s.rxByte := by
  have hr : s.inp.rst = false := by
    refine Bool.eq_false_of_not_eq_true fun hrst => hidle ?_
    obtain rfl := Host.Outcome.next.inj ((step_reset hrst).symm.trans h)
    rfl
  obtain ⟨u, hu, rfl⟩ := step_cases h
  obtain ⟨v, hv, rfl⟩ := reading_cases hu hr hp
  exact (received_countTick ..).trans (readingCase_received hv hr hp (countTick_phase .. ▸ hfull))

/-- Over a run of `READING` the bytes read are received, in order. -/
theorem received_of_run (n : Nat) {s t : State} (hd : During n s fun u => u.phase = .reading)
    (h : run n s = .next t) (hidle : t.phase ≠ .idle) (hfull : t.phase ≠ .overflow) :
    t.received = s.received ++ rxTaken n s := by
  induction n generalizing s with
  | zero =>
    obtain rfl := Host.Outcome.next.inj h
    exact (List.append_nil _).symm
  | succ n ih =>
    obtain ⟨v, hv, hrun⟩ := step_of_run_succ h
    obtain ⟨hp, hd⟩ := during_succ hd hv
    have hrest := ih hd hrun
    obtain ⟨hvidle, hvfull⟩ : v.phase ≠ .idle ∧ v.phase ≠ .overflow := by
      by_cases hpv : v.phase = .reading
      · simp [hpv]
      · obtain rfl := eq_zero_of_during hd hpv
        obtain rfl := Host.Outcome.next.inj hrun
        exact ⟨hidle, hfull⟩
    rw [hrest, step_received hp hv hvidle hvfull, rxTaken_succ hv, List.append_assoc]

/-- In `COMPLETE` the bytes received are the shortest sequence of them with CRC 0 (R86). -/
theorem complete_received {s : State} (h : Inv s) (hp : s.phase = .complete) :
    2 ≤ s.received.length ∧ crcCompute s.received = 0 ∧
      ∀ k, 0 < k → k < s.received.length → crcCompute (s.received.take k) ≠ 0 := by
  obtain ⟨-, hcrc, hzero, htwo, hearlier⟩ := (phaseOk_complete hp).mp h.phase
  rw [received_length h.buffer.written]
  exact ⟨htwo, hcrc ▸ hzero, hearlier⟩

/-! ### The deadline (R83, R87) -/

theorem elapsed_le_elapsedAfter (tick : Bool) (s : State) : s.elapsed ≤ s.elapsedAfter tick := by
  unfold State.elapsedAfter
  split_ifs
  · exact Nat.le_succ _
  · exact le_rfl

/-- During a command the timeout stays (R109). -/
theorem step_timeoutR_of_active {s t : State} (ha : s.phase.active = true) (hr : s.inp.rst = false)
    (h : step s = .next t) : t.timeoutR = s.timeoutR := by
  obtain ⟨u, hu, rfl⟩ := step_cases h
  have hne : s.phase ≠ .idle := fun hp => by simp [hp, Phase.active] at ha
  obtain ⟨-, htimeout, -⟩ := stepCase_command_held hu hr (.inl hne)
  exact htimeout

theorem step_elapsed_of_active {s t : State} (ha : s.phase.active = true) (hr : s.inp.rst = false)
    (h : step s = .next t) : t.elapsed = s.elapsedAfter s.inp.tickI := by
  obtain ⟨u, hu, rfl⟩ := step_cases h
  exact stepCase_elapsed_active (u := u) hu hr ha

/-- The timeout of a command is `T`, and in `TIMEOUT` more ticks are counted than it. -/
def TimedBy (T : Nat) (s : State) : Prop := s.timeoutR = T ∧ (s.phase = .timeout → T < s.elapsed)

theorem timedBy_step {T : Nat} {s t : State} (ha : s.phase.active = true ∧ s.inp.rst = false) (h : TimedBy T s)
    (hs : step s = .next t) : TimedBy T t := by
  obtain ⟨hactive, hr⟩ := ha
  obtain ⟨rfl, -⟩ := h
  refine ⟨step_timeoutR_of_active hactive hr hs, fun ht => ?_⟩
  rw [step_elapsed_of_active hactive hr hs]
  obtain ⟨u, hu, rfl⟩ := step_cases hs
  have hne : u.phase ≠ s.phase := fun heq => by
    rw [← heq, show u.phase = .timeout from ht] at hactive
    cases hactive
  obtain ⟨htimeout, -⟩ := stepCase_enters_outcome hu hne
  exact (htimeout ht).trans_le (elapsed_le_elapsedAfter _ _)

/-- From `READING` a step without reset stays there or comes to a terminal state. -/
theorem step_of_reading {s t : State} (hp : s.phase = .reading) (hr : s.inp.rst = false) (h : step s = .next t) :
    t.phase = .reading ∨ t.phase.terminal = true := by
  obtain ⟨u, hu, rfl⟩ := step_cases h
  obtain ⟨v, hv, rfl⟩ := reading_cases hu hr hp
  rw [advance_phase, countTick_phase]
  exact readingCase_phase hv hp

/-- One width more than `timeout_r` has is enough for `elapsed` to pass every timeout before it saturates (R16). -/
theorem timeoutR_lt_elapsedMax {s : State} (h : WidthsOk s) : s.timeoutR < 2 ^ (s.params.timerW + 1) - 1 :=
  h.timeout.trans_le (Nat.le_sub_one_of_lt (Nat.pow_lt_pow_right Nat.one_lt_two (Nat.lt_succ_self _)))

/-- Once the ticks exceed the timeout, `READING` ends at the next edge at the latest (R127). -/
theorem reading_ends_after_deadline (n : Nat) {s : State} (h : Inv s) (hp : s.phase = .reading)
    (hd : During (n + 1) s fun u => u.inp.rst = false) (hlate : s.timeoutR < s.elapsed + ticksOver n s) :
    ∃ m u, m ≤ n + 1 ∧ run m s = .next u ∧ u.phase.terminal = true := by
  induction n generalizing s with
  | zero =>
    have hr : s.inp.rst = false := hd 0 Nat.one_pos s rfl
    have hv := step_of_stepCase (.readTimeout hr hp (Iff.mpr expired_eq_true hlate))
    exact ⟨1, _, le_rfl, run_succ hv, by rw [advance_phase, countTick_phase]; rfl⟩
  | succ n ih =>
    obtain ⟨v, hv⟩ := step_next_of_inv h
    obtain ⟨hr, hd⟩ := during_succ hd hv
    have hactive : s.phase.active = true := Iff.mpr active_iff (.inr hp)
    obtain hpv | hpv := step_of_reading hp hr hv
    · have hlate' : v.timeoutR < v.elapsed + ticksOver n v := by
        have hmax := timeoutR_lt_elapsedMax h.widths
        rw [ticksOver_succ hv] at hlate
        rw [step_timeoutR_of_active hactive hr hv, step_elapsed_of_active hactive hr hv,
          elapsedAfter_eq_min _ h.widths.elapsed, ← Nat.add_min_add_right]
        exact lt_min (by rwa [Nat.add_assoc]) (hmax.trans_le (Nat.le_add_right _ _))
      obtain ⟨m, u, hm, hrun, hterminal⟩ := ih (inv_step h hv) hpv hd hlate'
      exact ⟨m + 1, u, Nat.succ_le_succ hm, (run_succ hv).trans hrun, hterminal⟩
    · exact ⟨1, v, Nat.succ_le_succ (Nat.zero_le _), run_succ hv, hpv⟩

end Sys2Proof.Machine

namespace Sys2Proof.Proofs

open Sys2Proof.Machine

/-- Settles O43: acceptance leaves the whole frame unsent. -/
theorem txStreamIsTheRequestFrame : Obligations.TxStreamIsTheRequestFrame := by
  intro s t f hp hr hv hf ht n hd
  obtain ⟨B, hB, rfl⟩ := requestFrame_eq_some.mp hf
  obtain rfl := Host.Outcome.next.inj ((step_accept hp hr hv hB).symm.trans ht)
  exact txTaken_prefix_unsent n (sending_startCommand B s) hd

/-- Settles O44: the acceptance edge takes no byte, and the eight after it take the eight of the frame. -/
theorem eightReadyCyclesSendTheFrame : Obligations.EightReadyCyclesSendTheFrame := by
  intro s a l rest f hp hstim hr hv hf hl hready
  obtain ⟨B, hB, rfl⟩ := requestFrame_eq_some.mp hf
  have hinp : s.inp = a := inp_cons s a (l ++ rest) hstim
  rw [← hinp] at hr hv hB
  have hstart := step_accept hp hr hv hB
  have hnone : s.txByte = [] := txByte_eq_nil (txHandshake_eq_false (.inr (.inl (by rw [hp]; nofun))))
  have hrest : (startCommand B s).advance.stim = l ++ rest := congrArg List.tail hstim
  obtain ⟨t, hrun, ⟨hreading, hcnt, hcrc, hlen⟩, hstimt, hbytes⟩ :=
    run_of_ready_link l rest (.inl (sending_startCommand B s)) ((Nat.zero_add _).trans hl) hrest hready
  rw [hl] at hrun hbytes
  refine ⟨t, (run_succ hstart).trans hrun, hreading, hcnt, hcrc, hlen, hstimt, ?_⟩
  rw [txTaken_succ hstart, hnone, hbytes, unsent_startCommand, List.nil_append]

/-- Settles O45: the bytes read are those received, of which the invariant speaks in `COMPLETE`. -/
theorem completeAtFirstZeroCrc : Obligations.CompleteAtFirstZeroCrc := by
  intro n s t h hp hlen hd hrun
  have hreceived (hidle : t.phase ≠ .idle) (hfull : t.phase ≠ .overflow) : t.received = rxTaken n s := by
    rw [received_of_run n hd hrun hidle hfull, received_len_zero hlen, List.nil_append]
  refine ⟨hreceived, fun hcomplete => ?_⟩
  obtain ⟨t', hrun', ht⟩ := inv_run n h
  obtain rfl := Host.Outcome.next.inj (hrun.symm.trans hrun')
  rw [← hreceived (by simp [hcomplete]) (by simp [hcomplete])]
  exact complete_received ht hcomplete

/-- Settles O46: in `TIMEOUT` the count exceeds the timeout, and the count is at most the ticks sampled. -/
theorem timeoutNeverEarly : Obligations.TimeoutNeverEarly := by
  intro n s t hp h0 hd hrun ht
  obtain ⟨-, hlate⟩ : TimedBy s.timeoutR t :=
    run_keeps (fun _ _ => timedBy_step) n ⟨rfl, fun hp' => by simp [hp] at hp'⟩ hd hrun
  have hticks := elapsed_of_run n (h0.trans_le (Nat.zero_le _)) hd hrun
  rw [h0, Nat.zero_add] at hticks
  exact (hlate ht).trans_le (hticks.trans_le (min_le_left _ _))

/-- Settles O47, by induction on the cycles up to the deadline's tick. -/
theorem timeoutNeverLate : Obligations.TimeoutNeverLate := fun n _ => reading_ends_after_deadline n

end Sys2Proof.Proofs
end
